-- ==== Sys2Proof/Word.lean ====
section
/-! DEFINITION. The words of the block: what spec/00_scope.md (R4, R6) and spec/30_encoding.md (R41) treat as bits of a
stated width. Every value is unsigned; there is no signed value anywhere in the block (R6). -/

namespace Sys2Proof

/-- `u32`: a timestamp, a delta, the accumulator, a frame, a `RESULT` (R4 `TS_WIDTH`, `ACC_WIDTH`; R6). -/
abbrev Word := BitVec 32

/-- The 35-bit event word `EV` of one operation (R41). -/
abbrev EventWord := BitVec 35

/-- The bit counter, 6 bits (R4 `COUNT_WIDTH`, R14). -/
abbrev Count := BitVec 6

/-- The checksum's input, 24 bits (R4 `CRC_IN_WIDTH`, R82). -/
abbrev CrcInput := BitVec 24

/-- A checksum, 8 bits (R4 `CRC_WIDTH`, R82). -/
abbrev Byte := BitVec 8

end Sys2Proof
end

