-- ==== Sys2Proof/Config.lean ====
section
/-! DEFINITION. The fixed parameters of spec/00_scope.md R4. None is left open: R4 says every numeric parameter of the block
is fixed, so there is no opaque constant here. The integer band limits and the checksum masks, which R4 lists too, stand
beside their one use: Machine/Operands.lean and Machine/Flags.lean. -/

namespace Sys2Proof.Config

/-- Reference period of the start marker, microseconds (R4 `T_START`). -/
def tStart : Nat := 13500

/-- Reference period of a logical one, microseconds (R4 `T_ONE`). -/
def tOne : Nat := 2250

/-- Reference period of a logical zero, microseconds (R4 `T_ZERO`). -/
def tZero : Nat := 1120

/-- Data bits per frame (R4 `FRAME_BITS`). -/
def frameBits : Nat := 32

/-- What the bit counter takes at a start marker (R4 `COUNT_SEED`). -/
def countSeed : Count := 1

/-- The bit counter of a complete frame (R4 `COUNT_DONE`). -/
def countDone : Count := 33

/-- Bit position of the checksum field's bit 0 in the frame (R4 `CRC_POS`). -/
def crcPos : Nat := 22

/-- The "no packet" frame (R4 `SENTINEL`, R53). -/
def sentinel : Word := 0

end Sys2Proof.Config
end

