-- ==== Sys2Proof/Machine/Operands.lean ====
section
/-! DEFINITION. What the block reads from its operands: the delta of an accepted edge (R7, R63), its class (R44), and the field
view of a frame (R48), which the block defines but never tests (R49). -/

namespace Sys2Proof.Machine

/-- The delta of an accepted edge: `ts - LAST_TIME` modulo 2^32 (R7, R63). -/
def delta (lastTime ts : Word) : Word := ts - lastTime

/-- The class of a delta (R44). -/
inductive Symbol where
  /-- The start marker. -/
  | start
  /-- A logical one. -/
  | one
  /-- A logical zero. -/
  | zero
  /-- In no band. -/
  | none
deriving DecidableEq, Repr

/-- Lowest delta of a start marker (R4, R44); the spec's decision D5 on the limits, log 11. -/
def startLo : Nat := 10800

/-- Highest delta of a start marker (R4, R44). -/
def startHi : Nat := 16875

/-- Lowest delta of a one (R4, R44). -/
def oneLo : Nat := 1800

/-- Highest delta of a one (R4, R44): 2812.5 rounded down. -/
def oneHi : Nat := 2812

/-- Lowest delta of a zero (R4, R44). -/
def zeroLo : Nat := 896

/-- Highest delta of a zero (R4, R44). -/
def zeroHi : Nat := 1400

/-- The delta lies in the closed band from `lo` to `hi` (R44: "Both ends are inclusive"). -/
def inBand (lo hi : Nat) (d : Word) : Bool := decide (lo ≤ d.toNat) && decide (d.toNat ≤ hi)

/-- `CLASS(d)` (R44). -/
def classify (d : Word) : Symbol :=
  if inBand startLo startHi d then .start
  else if inBand oneLo oneHi d then .one
  else if inBand zeroLo zeroHi d then .zero
  else .none

/-- The field view of a frame (R48). -/
structure Packet where
  /-- `w[0]`, receiver channel selector. -/
  channel : BitVec 1
  /-- `w[3:1]`, bitmask of up to 3 base teams. -/
  team : BitVec 3
  /-- `w[5:4]`: 0 none, 1 damage, 2 heal; 3 has no meaning and is not excluded (R52). -/
  action : BitVec 2
  /-- `w[9:6]`, action-specific parameter. -/
  actionParam : BitVec 4
  /-- `w[21:10]`, shooter identifier. -/
  playerId : BitVec 12
  /-- `w[29:22]`, the checksum field. -/
  crc : BitVec 8
  /-- `w[31:30]`, reserved, not tested (R51). -/
  unused : BitVec 2
deriving DecidableEq, Repr

/-- Extraction `field = w[hi:lo]` (R48), no byte swap, shift or mask besides (R38). -/
def packetOf (w : Word) : Packet :=
  { channel := w.extractLsb' 0 1
    team := w.extractLsb' 1 3
    action := w.extractLsb' 4 2
    actionParam := w.extractLsb' 6 4
    playerId := w.extractLsb' 10 12
    crc := w.extractLsb' 22 8
    unused := w.extractLsb' 30 2 }

/-- Insertion, the inverse: the fields shifted to their places and OR-ed (R48). -/
def packetWord (p : Packet) : Word :=
  p.channel.setWidth 32 ||| p.team.setWidth 32 <<< 1 ||| p.action.setWidth 32 <<< 4 |||
    p.actionParam.setWidth 32 <<< 6 ||| p.playerId.setWidth 32 <<< 10 ||| p.crc.setWidth 32 <<< 22 |||
    p.unused.setWidth 32 <<< 30

end Sys2Proof.Machine
end

