-- ==== Sys2Proof/Machine/Flags.lean ====
section
/-! DEFINITION. The tests whose outcome steers the block: the checksum and its validity comparison (spec/41_checksum.md), the
completion test (R69), the sentinel test (R53), and the sender's fixed point of the checksum (R88). -/

namespace Sys2Proof.Machine

/-- `MASK[-2]` (R81), for the input shifted left by 2. The eight masks are as printed and unaudited, log 10. -/
def maskL2 : Word := 0x0203FDFC

/-- `MASK[-1]` (R81), left by 1. -/
def maskL1 : Word := 0x01FE01FE

/-- `MASK[0]` (R81), not shifted. -/
def mask0 : Word := 0x0003FFFF

/-- `MASK[+1]` (R81), right by 1. -/
def maskR1 : Word := 0x00020000

/-- `MASK[+2]` (R81), right by 2. -/
def maskR2 : Word := 0x0001FE00

/-- `MASK[+3]` (R81), right by 3. -/
def maskR3 : Word := 0x0003FE00

/-- `MASK[+4]` (R81), right by 4. -/
def maskR4 : Word := 0x000E00FF

/-- `MASK[+5]` (R81), right by 5. -/
def maskR5 : Word := 0x0003FE02

/-- The XOR of the eight masked shifts of `x` (R82, the value `a`). -/
def crcTerms (x : Word) : Word :=
  (x <<< 2 &&& maskL2) ^^^ (x <<< 1 &&& maskL1) ^^^ (x &&& mask0) ^^^ (x >>> 1 &&& maskR1) ^^^
    (x >>> 2 &&& maskR2) ^^^ (x >>> 3 &&& maskR3) ^^^ (x >>> 4 &&& maskR4) ^^^ (x >>> 5 &&& maskR5)

/-- The fold to the low byte (R82, the value `f[7:0]`). -/
def crcFold (a : Word) : Byte :=
  (a ^^^ a >>> 8 ^^^ a >>> 16 ^^^ a >>> 24).extractLsb' 0 8

/-- `CRC8(p)` (R82). -/
def crc8 (p : CrcInput) : Byte := crcFold (crcTerms (p.setWidth 32))

/-- `VALID(w)` (R85): the checksum recomputed over `w[23:0]`, XOR-ed into bits 29:22, leaves that field 0. -/
def valid (w : Word) : Bool :=
  let c := crc8 (w.extractLsb' 0 24)
  let v := w ^^^ c.setWidth 32 <<< Config.crcPos
  v.extractLsb' Config.crcPos 8 == 0

/-- The frame is the all-zero sentinel (R53). -/
def isSentinel (w : Word) : Bool := w == Config.sentinel

/-- The increment of this count completes the frame (R69): "equality with 33 on the new count". -/
def completes (count : Count) : Bool := count + 1 == Config.countDone

/-- The one checksum field that makes a frame with this 22-bit payload valid (R88). -/
def sealCrc (payload : BitVec 22) : Byte :=
  let f := crc8 (payload.setWidth 24)
  let c0 := f.getLsbD 1
  let c1 := f.getLsbD 0 ^^ f.getLsbD 1
  f ^^^ (if c0 then 0x86 else 0) ^^^ (if c1 then 0x0B else 0)

/-- The frame with a payload, a checksum field and the two unused bits in their places (R48, R88). -/
def frameOf (payload : BitVec 22) (crc : Byte) (unused : BitVec 2) : Word :=
  payload.setWidth 32 ||| crc.setWidth 32 <<< Config.crcPos ||| unused.setWidth 32 <<< 30

/-- `SEAL(P, u)` (R88): the valid frame with payload `P` and unused bits `u`, for building frames; the transmit side itself is
out of scope (R3). -/
def sealFrame (payload : BitVec 22) (unused : BitVec 2) : Word := frameOf payload (sealCrc payload) unused

end Sys2Proof.Machine
end

