-- ==== Sys2Proof/Machine/State.lean ====
section
/-! DEFINITION. The state of the block as plain data: the six elements of spec/10_state.md R10 ("nothing else is state"), and
two fields of the MODEL's own that stand for its two faces to the outside, the operations waiting to be taken and the
`RESULT`s returned. There is no program counter (R21), no memory (R30), no register file (R22). -/

namespace Sys2Proof.Machine

/-- The state of the block (R10), with the model's `inputs` and `results`. -/
structure State where
  /-- `ARMED` (R11): false is DISABLED, true is ARMED. -/
  armed : Bool
  /-- `LAST_LEVEL` (R12): the logical level last observed by the edge filter. -/
  lastLevel : Bool
  /-- `LAST_TIME` (R13): the timestamp of the last accepted edge, microseconds. -/
  lastTime : Word
  /-- `BIT_COUNT` (R14): 0 to 33. -/
  bitCount : Count
  /-- `ACC` (R15): the bit-assembly shift register and single-slot frame buffer. -/
  acc : Word
  /-- `FRAME_COMPLETE` (R16): a frame is pending. -/
  frameComplete : Bool
  /-- The model's own (DESIGN CHOICE, log 1): the event words the agents have issued and the block has not taken yet, oldest
  first, the one total order of R35. -/
  inputs : List EventWord
  /-- The model's own (DESIGN CHOICE, log 3): every `RESULT` (R50) a `READ` has returned, oldest first. -/
  results : List Word
deriving DecidableEq, Repr

/-- Why the machine could stop with a fault: for no reason. R100: "No operation of the block raises an exception, reports an
error, returns an error code, blocks or faults, in any state and for any operand value." The type has no constructor. -/
inductive Fault where
deriving DecidableEq, Repr

/-- Why the machine could refuse an instruction. No meaning raises this: every row of the opcode table has its meaning. -/
inductive Refusal where
  /-- An instruction that has no meaning yet, raised only by an arm of `exec` (safe: it stops). No arm raises it. -/
  | notModelled (mnemonic : String)
deriving DecidableEq, Repr

/-- The block right after power-on reset: every element 0 (R17, R120). The two lists of the model's own are empty (DESIGN
CHOICE, log 3 and log 4). -/
def State.reset : State :=
  { armed := false
    lastLevel := false
    lastTime := 0
    bitCount := 0
    acc := 0
    frameComplete := false
    inputs := []
    results := [] }

end Sys2Proof.Machine
end

