-- ==== Sys2Proof/Machine/Ops.lean ====
section
/-! DEFINITION. The named operations over the state that the meanings share, and the two whole-operation listings: `EDGE` as
spec/40_edge_decoder.md R71 has it, `READ` as spec/42_receiver_ops.md R92 to R96 have it in the order of R108. The block
takes no exception and returns from none (R100), so no such operation stands here. -/

namespace Sys2Proof.Machine

/-- `DecoderReset()` (R18): the five elements of DecoderState to 0, `ARMED` left alone. -/
def decoderReset (s : State) : State :=
  { s with lastLevel := false, lastTime := 0, bitCount := 0, acc := 0, frameComplete := false }

/-- `ARMED <- b` (R11, R90, R91). -/
def setArmed (b : Bool) (s : State) : State := { s with armed := b }

/-- What a filtered edge leaves: `LAST_LEVEL <- level` (R62). -/
def trackLevel (level : Bool) (s : State) : State := { s with lastLevel := level }

/-- The common part of an accepted edge: `LAST_TIME <- ts`, `LAST_LEVEL <- 1` (R63). -/
def recordEdge (ts : Word) (s : State) : State := { s with lastTime := ts, lastLevel := true }

/-- A start marker: `BIT_COUNT <- 1`, `ACC <- 0` (R64). It is not a `DecoderReset()` (C4). -/
def seedFrame (s : State) : State := { s with bitCount := Config.countSeed, acc := 0 }

/-- The accumulator after a data bit: a logical right shift, the bit entering at bit 31 (R65, R66). -/
def shiftedAcc (bit : Bool) (a : Word) : Word := if bit then a >>> 1 ||| 0x80000000 else a >>> 1

/-- `BIT_COUNT <- BIT_COUNT + 1`, and `FRAME_COMPLETE <- 1` if the new count is 33 (R65, R66, R69). -/
def countBit (s : State) : State :=
  { s with bitCount := s.bitCount + 1, frameComplete := completes s.bitCount || s.frameComplete }

/-- A data bit shifted in and counted (R65, R66), at any count, 0 included (R70). -/
def shiftIn (bit : Bool) (s : State) : State := countBit { s with acc := shiftedAcc bit s.acc }

/-- `return r`: the `RESULT` of a `READ` goes to the consumer (R50). -/
def returnResult (r : Word) (s : State) : State := { s with results := s.results ++ [r] }

/-- The whole `EDGE` operation in the order of evaluation of R71. -/
def edgeOperation (level : Bool) (ts : Word) (s : State) : State :=
  if s.armed = false then s
  else if s.frameComplete = true then s
  else if ¬(s.lastLevel = false ∧ level = true) then trackLevel level s
  else
    let d := delta s.lastTime ts
    if inBand startLo startHi d then seedFrame (recordEdge ts s)
    else if inBand oneLo oneHi d then shiftIn true (recordEdge ts s)
    else if inBand zeroLo zeroHi d then shiftIn false (recordEdge ts s)
    else recordEdge ts s

/-- The whole `READ` operation: flag, then zero test, then checksum (R92 to R96, R108). -/
def readOperation (s : State) : State :=
  if s.frameComplete = false then returnResult 0 s
  else
    let w := s.acc
    if isSentinel w then returnResult 0 (decoderReset s)
    else if valid w then returnResult w (decoderReset s)
    else returnResult 0 (decoderReset s)

end Sys2Proof.Machine
end

