-- ==== Sys2Proof/Machine/Control.lean ====
section
/-! DEFINITION. The meanings of `ENABLE` and `DISABLE` (spec/42_receiver_ops.md). Their condition is "always" (R42). -/

namespace Sys2Proof.Machine

/-- `ENABLE` (R90): `DecoderReset()` and `ARMED <- 1`, also when already armed (the spec's decision D16). -/
def execEnable (s : State) : Host.Outcome State Fault Refusal := .next (setArmed true (decoderReset s))

/-- `DISABLE` (R91): `DecoderReset()` and `ARMED <- 0`, a pending frame discarded too (the spec's decision D17). -/
def execDisable (s : State) : Host.Outcome State Fault Refusal := .next (setArmed false (decoderReset s))

end Sys2Proof.Machine
end

