-- ==== Sys2Proof/Syntax.lean ====
section
/-! DEFINITION. The instructions: one constructor per row of spec/opcode_table.json, that is, per sub-case of
spec/30_encoding.md R42. A row is one of the four operations of R40 together with the condition on the state that selects
it. `level` is the logical level after the transition, true while an IR burst is present (R40, R12); `ts` is the time of the
transition in microseconds. `READ`, `ENABLE` and `DISABLE` have no operand: R41 ignores the rest of their event word. -/

namespace Sys2Proof

/-- The fourteen sub-cases of the opcode table (R42). -/
inductive Instr where
  /-- `EDGE.OFF`: an edge while the receiver is disabled (R60). -/
  | edgeOff (level : Bool) (ts : Word)
  /-- `EDGE.HELD`: an edge while a completed frame waits (R61). -/
  | edgeHeld (level : Bool) (ts : Word)
  /-- `EDGE.SKIP`: an edge that is not a logical rising edge (R62). -/
  | edgeSkip (level : Bool) (ts : Word)
  /-- `EDGE.START`: the start marker (R64). -/
  | edgeStart (level : Bool) (ts : Word)
  /-- `EDGE.ONE`: a logical one (R65). -/
  | edgeOne (level : Bool) (ts : Word)
  /-- `EDGE.ZERO`: a logical zero (R66). -/
  | edgeZero (level : Bool) (ts : Word)
  /-- `EDGE.NOISE`: an out-of-band delta before synchronisation (R67). -/
  | edgeNoise (level : Bool) (ts : Word)
  /-- `EDGE.DESYNC`: an out-of-band delta inside a frame (R68). -/
  | edgeDesync (level : Bool) (ts : Word)
  /-- `READ.EMPTY`: a poll that finds nothing (R92). -/
  | readEmpty
  /-- `READ.ZERO`: the all-zero frame is dropped (R96). -/
  | readZero
  /-- `READ.OK`: a valid frame is delivered (R94). -/
  | readOk
  /-- `READ.BAD`: a frame that fails the checksum is dropped (R95). -/
  | readBad
  /-- `ENABLE` (R90). -/
  | enable
  /-- `DISABLE` (R91). -/
  | disable
deriving DecidableEq, Repr

end Sys2Proof
end

