-- ==== Sys2Proof/WellFormed.lean ====
section
/-! DEFINITION. Which terms of `Instr` an agent can cause at all. The five rows of an accepted edge name the operand
`level = 1` as part of themselves (R64 to R68: "Operands: `level = 1`"); every other operand is unrestricted (R40). -/

namespace Sys2Proof

/-- The operands of a row are ones its rule gives it (R60 to R68, R90 to R96). -/
def Instr.wf : Instr → Bool
  | .edgeOff _ _ => true
  | .edgeHeld _ _ => true
  | .edgeSkip _ _ => true
  | .edgeStart level _ => level
  | .edgeOne level _ => level
  | .edgeZero level _ => level
  | .edgeNoise level _ => level
  | .edgeDesync level _ => level
  | .readEmpty => true
  | .readZero => true
  | .readOk => true
  | .readBad => true
  | .enable => true
  | .disable => true

end Sys2Proof
end

