-- ==== Sys2Proof/Decode.lean ====
section
/-! DEFINITION. The event word of spec/30_encoding.md R41, read and written. The word selects the OPERATION (one of the four
of R40); which ROW of the opcode table the operation is, the state selects (R42): that part of decoding stands in
Machine/Fetch.lean (`subcase`, `decodeAt`). -/

namespace Sys2Proof

/-- The four operations (R40), what an event word denotes. -/
inductive Operation where
  /-- `EDGE(level, ts)`, issued by the edge source. -/
  | edge (level : Bool) (ts : Word)
  /-- `READ`, issued by the consumer. -/
  | read
  /-- `ENABLE`, issued by the controller. -/
  | enable
  /-- `DISABLE`, issued by the controller. -/
  | disable
deriving DecidableEq, Repr

/-- Why a number is no event word. A 35-bit event word is never refused (R41: "no event word is illegal"). -/
inductive DecodeError where
  /-- The number has a bit set above `EV[34]`. -/
  | notAnEventWord (w : Nat)
deriving DecidableEq, Repr

/-- `EV[34:33]`, the operation field (R41). -/
def evOp (ev : EventWord) : BitVec 2 := ev.extractLsb' 33 2

/-- `EV[32]`, the operand `level` (R41). -/
def evLevel (ev : EventWord) : Bool := ev.getLsbD 32

/-- `EV[31:0]`, the operand `ts` (R41). -/
def evTs (ev : EventWord) : Word := ev.extractLsb' 0 32

/-- The operation an event word denotes (R41): op 0 is `EDGE`, 1 `READ`, 2 `ENABLE`, 3 `DISABLE`. -/
def decodeOperation (ev : EventWord) : Operation :=
  if evOp ev = 0 then .edge (evLevel ev) (evTs ev)
  else if evOp ev = 1 then .read
  else if evOp ev = 2 then .enable
  else .disable

/-- The first row of an operation in the opcode table (`decode_order` 1). It is also the row the state after reset
selects (Laws/Fetch.lean, `subcase_reset`). -/
def firstRow : Operation → Instr
  | .edge level ts => .edgeOff level ts
  | .read => .readEmpty
  | .enable => .enable
  | .disable => .disable

/-- An event word decoded without a state: its operation, named by that operation's first row. -/
def decode (ev : EventWord) : Instr := firstRow (decodeOperation ev)

/-- A number as an event word: refused by name if it has a bit above `EV[34]` (DESIGN CHOICE, log 7). -/
def eventWordOf (w : Nat) : Except DecodeError EventWord :=
  if w < 2 ^ 35 then .ok (BitVec.ofNat 35 w) else .error (.notAnEventWord w)

/-- The decoder, total on every number. -/
def decodeNumber (w : Nat) : Except DecodeError Instr :=
  match eventWordOf w with
  | .ok ev => .ok (decode ev)
  | .error e => .error e

/-- The instruction read from a table word of `nbits` bits; bits above `nbits` count as 0. -/
def decodeTableWord (nbits w : Nat) : Option Instr :=
  match decodeNumber (w % 2 ^ nbits) with
  | .ok i => some i
  | .error _ => none

/-- The operation a row belongs to (R42, column "operation"). -/
def operationOf : Instr → Operation
  | .edgeOff level ts => .edge level ts
  | .edgeHeld level ts => .edge level ts
  | .edgeSkip level ts => .edge level ts
  | .edgeStart level ts => .edge level ts
  | .edgeOne level ts => .edge level ts
  | .edgeZero level ts => .edge level ts
  | .edgeNoise level ts => .edge level ts
  | .edgeDesync level ts => .edge level ts
  | .readEmpty => .read
  | .readZero => .read
  | .readOk => .read
  | .readBad => .read
  | .enable => .enable
  | .disable => .disable

/-- The event word `{op, level, ts}` put together from its fields (R41). -/
def packEvent (op : BitVec 2) (level : Bool) (ts : Word) : EventWord :=
  op ++ BitVec.ofBool level ++ ts

/-- The canonical event word of an operation: ignored fields are written 0 (R41). -/
def encodeOperation : Operation → EventWord
  | .edge level ts => packEvent 0 level ts
  | .read => packEvent 1 false 0
  | .enable => packEvent 2 false 0
  | .disable => packEvent 3 false 0

/-- The event word of a row: that of its operation (R42: rows of one operation share their words). -/
def encode (i : Instr) : EventWord := encodeOperation (operationOf i)

end Sys2Proof
end

