-- ==== Sys2Proof/Machine/Fetch.lean ====
section
/-! DEFINITION. From the waiting operations to the row of the opcode table that runs: the selecting conditions of
spec/30_encoding.md R42, the row the state selects for an operation, and the taking of the oldest waiting event word. The
block fetches no instructions (R37); what is taken here is an operation an agent issued (R5, R35). -/

namespace Sys2Proof.Machine

/-- `EDGE.OFF`: `ARMED = 0` (R60). -/
def whenOff (s : State) : Bool := !s.armed

/-- `EDGE.HELD`: `ARMED = 1` and `FRAME_COMPLETE = 1` (R61). -/
def whenHeld (s : State) : Bool := s.armed && s.frameComplete

/-- `EDGE.SKIP`: armed, no frame pending, and not a logical rising edge (R62). -/
def whenSkip (level : Bool) (s : State) : Bool :=
  s.armed && !s.frameComplete && !(!s.lastLevel && level)

/-- The edge is accepted: armed, no frame pending, a logical rising edge (R63). -/
def accepts (level : Bool) (s : State) : Bool :=
  s.armed && !s.frameComplete && !s.lastLevel && level

/-- The edge is accepted and its delta has the class `c` (R63, R44). -/
def acceptsAs (c : Symbol) (level : Bool) (ts : Word) (s : State) : Bool :=
  accepts level s && classify (delta s.lastTime ts) == c

/-- `EDGE.NOISE`: accepted, in no band, no start marker seen (R67). -/
def whenNoise (level : Bool) (ts : Word) (s : State) : Bool :=
  acceptsAs .none level ts s && s.bitCount == 0

/-- `EDGE.DESYNC`: accepted, in no band, inside a frame (R68). -/
def whenDesync (level : Bool) (ts : Word) (s : State) : Bool :=
  acceptsAs .none level ts s && s.bitCount != 0

/-- `READ.EMPTY`: `FRAME_COMPLETE = 0` (R92). -/
def whenEmpty (s : State) : Bool := !s.frameComplete

/-- `READ.ZERO`: a pending frame equal to 0 (R96). -/
def whenZero (s : State) : Bool := s.frameComplete && isSentinel s.acc

/-- `READ.OK`: a pending, non-zero, valid frame (R94). -/
def whenOk (s : State) : Bool := s.frameComplete && !isSentinel s.acc && valid s.acc

/-- `READ.BAD`: a pending, non-zero frame that fails the checksum (R95). -/
def whenBad (s : State) : Bool := s.frameComplete && !isSentinel s.acc && !valid s.acc

/-- The selecting condition of a row, the member `condition` of its entry in the opcode table (R42). -/
def selects (i : Instr) (s : State) : Bool :=
  match i with
  | .edgeOff _ _ => whenOff s
  | .edgeHeld _ _ => whenHeld s
  | .edgeSkip level _ => whenSkip level s
  | .edgeStart level ts => acceptsAs .start level ts s
  | .edgeOne level ts => acceptsAs .one level ts s
  | .edgeZero level ts => acceptsAs .zero level ts s
  | .edgeNoise level ts => whenNoise level ts s
  | .edgeDesync level ts => whenDesync level ts s
  | .readEmpty => whenEmpty s
  | .readZero => whenZero s
  | .readOk => whenOk s
  | .readBad => whenBad s
  | .enable => true
  | .disable => true

/-- The row an operation is in a state: the conditions in the order of R42's table, the first that holds. -/
def subcase (s : State) : Operation → Instr
  | .edge level ts =>
    if s.armed = false then .edgeOff level ts
    else if s.frameComplete = true then .edgeHeld level ts
    else if ¬(s.lastLevel = false ∧ level = true) then .edgeSkip level ts
    else
      match classify (delta s.lastTime ts) with
      | .start => .edgeStart level ts
      | .one => .edgeOne level ts
      | .zero => .edgeZero level ts
      | .none => if s.bitCount = 0 then .edgeNoise level ts else .edgeDesync level ts
  | .read =>
    if s.frameComplete = false then .readEmpty
    else if isSentinel s.acc then .readZero
    else if valid s.acc then .readOk
    else .readBad
  | .enable => .enable
  | .disable => .disable

/-- An event word decoded in a state: the row that runs (R41, R42). -/
def decodeAt (s : State) (ev : EventWord) : Instr := subcase s (decodeOperation ev)

/-- Takes the oldest waiting operation (R35): the row it is, and the state with that operation taken. -/
def fetch (s : State) : Option (Instr × State) :=
  match s.inputs with
  | [] => none
  | ev :: rest => some (decodeAt s ev, { s with inputs := rest })

/-- No operation waits: nothing changes (DESIGN CHOICE, log 2; R19: no operation other than the four can change the state). -/
def idle (s : State) : State := s

/-- An agent issues an operation: it goes behind those already waiting (R5, R35). -/
def issue (ev : EventWord) (s : State) : State := { s with inputs := s.inputs ++ [ev] }

/-- An operation put before all that wait, so that the next step takes it; a number that is no event word puts nothing
(log 4, log 7). -/
def placeNext (s : State) (nbits w : Nat) : State :=
  match eventWordOf (w % 2 ^ nbits) with
  | .ok ev => { s with inputs := ev :: s.inputs }
  | .error _ => s

end Sys2Proof.Machine
end

