-- ==== Sys2Proof/Machine/Edge.lean ====
section
/-! DEFINITION. The meanings of the eight rows of `EDGE` (spec/40_edge_decoder.md). Each says what its own rule gives under
its selecting condition. A row is one operation in a state that selects the row (R42); in a state that selects another row the
same event word is that other row, so there the meaning is the whole operation of R71 (log 6). `step` runs a row only in a
state that selects it (Machine/Fetch.lean). No row stops: R40, R100. -/

namespace Sys2Proof.Machine

/-- `EDGE.OFF` (R60): no state element changes. -/
def execEdgeOff (level : Bool) (ts : Word) (s : State) : Host.Outcome State Fault Refusal :=
  .next (if whenOff s then s else edgeOperation level ts s)

/-- `EDGE.HELD` (R61): no state element changes, `LAST_LEVEL` and `LAST_TIME` included. -/
def execEdgeHeld (level : Bool) (ts : Word) (s : State) : Host.Outcome State Fault Refusal :=
  .next (if whenHeld s then s else edgeOperation level ts s)

/-- `EDGE.SKIP` (R62): `LAST_LEVEL <- level`, nothing else; `ts` is never stored. -/
def execEdgeSkip (level : Bool) (ts : Word) (s : State) : Host.Outcome State Fault Refusal :=
  .next (if whenSkip level s then trackLevel level s else edgeOperation level ts s)

/-- `EDGE.START` (R63, R64): time and level recorded, count 1, accumulator 0. -/
def execEdgeStart (level : Bool) (ts : Word) (s : State) : Host.Outcome State Fault Refusal :=
  .next (if acceptsAs .start level ts s then seedFrame (recordEdge ts s) else edgeOperation level ts s)

/-- `EDGE.ONE` (R63, R65, R69, R70): time and level recorded, a 1 shifted in at bit 31 and counted. -/
def execEdgeOne (level : Bool) (ts : Word) (s : State) : Host.Outcome State Fault Refusal :=
  .next (if acceptsAs .one level ts s then shiftIn true (recordEdge ts s) else edgeOperation level ts s)

/-- `EDGE.ZERO` (R63, R66, R69, R70): time and level recorded, a 0 shifted in at bit 31 and counted. -/
def execEdgeZero (level : Bool) (ts : Word) (s : State) : Host.Outcome State Fault Refusal :=
  .next (if acceptsAs .zero level ts s then shiftIn false (recordEdge ts s) else edgeOperation level ts s)

/-- `EDGE.NOISE` (R63, R67): time and level recorded, nothing else. -/
def execEdgeNoise (level : Bool) (ts : Word) (s : State) : Host.Outcome State Fault Refusal :=
  .next (if whenNoise level ts s then recordEdge ts s else edgeOperation level ts s)

/-- `EDGE.DESYNC` (R63, R68): time and level recorded; counter, accumulator and flag untouched (C3). -/
def execEdgeDesync (level : Bool) (ts : Word) (s : State) : Host.Outcome State Fault Refusal :=
  .next (if whenDesync level ts s then recordEdge ts s else edgeOperation level ts s)

end Sys2Proof.Machine
end

