-- ==== Sys2Proof/Machine/Read.lean ====
section
/-! DEFINITION. The meanings of the four rows of `READ` (spec/42_receiver_ops.md). As for `EDGE`, each says what its own rule
gives under its selecting condition, and in a state that selects another row of `READ` it is the whole operation (R42, log 6).
No row stops: R40, R100. -/

namespace Sys2Proof.Machine

/-- `READ.EMPTY` (R92): no state element written, `RESULT = 0`. -/
def execReadEmpty (s : State) : Host.Outcome State Fault Refusal :=
  .next (if whenEmpty s then returnResult 0 s else readOperation s)

/-- `READ.ZERO` (R93, R96): the slot is freed, `RESULT = 0`. -/
def execReadZero (s : State) : Host.Outcome State Fault Refusal :=
  .next (if whenZero s then returnResult 0 (decoderReset s) else readOperation s)

/-- `READ.OK` (R93, R94): the slot is freed, `RESULT` is the frame exactly as assembled. -/
def execReadOk (s : State) : Host.Outcome State Fault Refusal :=
  .next (if whenOk s then returnResult s.acc (decoderReset s) else readOperation s)

/-- `READ.BAD` (R93, R95): the slot is freed, `RESULT = 0`. -/
def execReadBad (s : State) : Host.Outcome State Fault Refusal :=
  .next (if whenBad s then returnResult 0 (decoderReset s) else readOperation s)

end Sys2Proof.Machine
end

