-- ==== Sys2Proof/Machine/Dispatch.lean ====
section
/-! DEFINITION. One arm per constructor of `Instr`, each one direct call of the row's meaning. -/

namespace Sys2Proof.Machine

def exec (i : Instr) (s : State) : Host.Outcome State Fault Refusal :=
  match i with
  | .edgeOff level ts => Sys2Proof.Machine.execEdgeOff level ts s
  | .edgeHeld level ts => Sys2Proof.Machine.execEdgeHeld level ts s
  | .edgeSkip level ts => Sys2Proof.Machine.execEdgeSkip level ts s
  | .edgeStart level ts => Sys2Proof.Machine.execEdgeStart level ts s
  | .edgeOne level ts => Sys2Proof.Machine.execEdgeOne level ts s
  | .edgeZero level ts => Sys2Proof.Machine.execEdgeZero level ts s
  | .edgeNoise level ts => Sys2Proof.Machine.execEdgeNoise level ts s
  | .edgeDesync level ts => Sys2Proof.Machine.execEdgeDesync level ts s
  | .readEmpty => Sys2Proof.Machine.execReadEmpty s
  | .readZero => Sys2Proof.Machine.execReadZero s
  | .readOk => Sys2Proof.Machine.execReadOk s
  | .readBad => Sys2Proof.Machine.execReadBad s
  | .enable => Sys2Proof.Machine.execEnable s
  | .disable => Sys2Proof.Machine.execDisable s

end Sys2Proof.Machine
end

