-- ==== Sys2Proof/Machine/Step.lean ====
section
/-! DEFINITION. One step: the block takes the oldest waiting operation (R35) and runs the row it is in this state (R42); when
none waits, nothing changes (log 2). The order of operations is the order of `inputs`: quantifying over states quantifies over
every interleaving of the agents (R108). -/

namespace Sys2Proof.Machine

/-- One operation of the block, or nothing when none waits (R40, R35). -/
def step (s : State) : Host.Outcome State Fault Refusal :=
  match fetch s with
  | none => .next (idle s)
  | some (i, s') => exec i s'

/-- An agent issues this operation as the very next one (log 4). -/
def State.withFetchWord (s : State) (nbits w : Nat) : State := placeNext s nbits w

end Sys2Proof.Machine
end

