-- ==== Sys2Proof/Machine/Line.lean ====
section
/-! DEFINITION. What the infrared line presents to the block, as event words: the pseudo-operations `RISE`, `FALL`, `FRAME` of
spec/30_encoding.md R56, and the bit cells of R43 and R46 with any falling-edge time and any period. They build inputs; `step`
does not use them. -/

namespace Sys2Proof.Machine

/-- `RISE @t` (R56). -/
def rise (t : Word) : EventWord := encodeOperation (.edge true t)

/-- `FALL @t` (R56). -/
def fall (t : Word) : EventWord := encodeOperation (.edge false t)

/-- The period of a cell that carries a bit (R56): the reference periods of R4. -/
def cellPeriod (bit : Bool) : Word :=
  if bit then BitVec.ofNat 32 Config.tOne else BitVec.ofNat 32 Config.tZero

/-- The cells of `FRAME` from the rising edge `RISE @c` on, the closing burst included (R56). The burst length 560 is the
filler of R56 (93 G2); no rule reads a falling edge's time. -/
def frameCells (c : Word) : List Bool → List EventWord
  | [] => [rise c, fall (c + 560)]
  | b :: bs => rise c :: fall (c + 560) :: frameCells (c + cellPeriod b) bs

/-- The bits of a frame in the order they are sent, bit 0 first (R32, R47). -/
def sentBits (w : Word) : List Bool := (List.range 32).map w.getLsbD

/-- `FRAME w @t0` (R56): the 68 operations. -/
def frameEvents (w t0 : Word) : List EventWord :=
  rise t0 :: fall (t0 + 9000) :: frameCells (t0 + BitVec.ofNat 32 Config.tStart) (sentBits w)

/-- One bit cell on the line: when its falling edge is seen, and the period from rising edge to rising edge (R43, R46). -/
structure Cell where
  /-- The timestamp of the falling edge inside the cell. -/
  fallTime : Word
  /-- The full period of the cell, microseconds. -/
  period : Word
deriving DecidableEq, Repr

/-- The edges of a run of cells after an accepted edge at `t`: for each cell its falling edge, then the rising edge that
closes it (R46). -/
def cellEdges (t : Word) : List Cell → List EventWord
  | [] => []
  | c :: cs => fall c.fallTime :: rise (t + c.period) :: cellEdges (t + c.period) cs

/-- The time of the last rising edge of a run of cells that starts at `t`. -/
def lastRise (t : Word) : List Cell → Word
  | [] => t
  | c :: cs => lastRise (t + c.period) cs

/-- The data bit a cell carries: 1 for class `ONE`, 0 for `ZERO`, none otherwise (R46). -/
def cellBit (c : Cell) : Option Bool :=
  match classify c.period with
  | .one => some true
  | .zero => some false
  | .start => none
  | .none => none

end Sys2Proof.Machine
end

