-- ==== Sys2Proof/Machine/Phase.lean ====
section
/-! DEFINITION. The sequencing view in place of a program counter (spec/10_state.md R21) and the table of its transitions
(spec/42_receiver_ops.md R97). Both are views: `step` does not use them. -/

namespace Sys2Proof.Machine

/-- The phases of R21. -/
inductive Phase where
  /-- `OFF`: D0's DISABLED. -/
  | off
  /-- `IDLE`: D0's ARMED. -/
  | idle
  /-- `RUN(k)`, 1 to 32: frame in progress. -/
  | run (k : Nat)
  /-- `PENDING`: frame pending. -/
  | pending
deriving DecidableEq, Repr

/-- The phase of a state by the conditions of R21; `none` for a state none of them describes (no such state is reachable,
R20). -/
def phase (s : State) : Option Phase :=
  if s.armed = false then some .off
  else if s.frameComplete = true then (if s.bitCount = 33 then some .pending else none)
  else if s.bitCount = 0 then some .idle
  else if s.bitCount.toNat ≤ 32 then some (.run s.bitCount.toNat)
  else none

/-- The phase after a row, for every phase the row can occur in (R97); `none` where the table lists no such row. -/
def nextPhase (p : Phase) (i : Instr) : Option Phase :=
  match i with
  | .enable => some .idle
  | .disable => some .off
  | .edgeOff _ _ => match p with
    | .off => some .off
    | .idle => none
    | .run _ => none
    | .pending => none
  | .edgeHeld _ _ => match p with
    | .pending => some .pending
    | .off => none
    | .idle => none
    | .run _ => none
  | .edgeSkip _ _ => match p with
    | .idle => some .idle
    | .run k => some (.run k)
    | .off => none
    | .pending => none
  | .edgeStart _ _ => match p with
    | .idle => some (.run 1)
    | .run _ => some (.run 1)
    | .off => none
    | .pending => none
  | .edgeOne _ _ => match p with
    | .idle => some (.run 1)
    | .run k => if k = 32 then some .pending else some (.run (k + 1))
    | .off => none
    | .pending => none
  | .edgeZero _ _ => match p with
    | .idle => some (.run 1)
    | .run k => if k = 32 then some .pending else some (.run (k + 1))
    | .off => none
    | .pending => none
  | .edgeNoise _ _ => match p with
    | .idle => some .idle
    | .off => none
    | .run _ => none
    | .pending => none
  | .edgeDesync _ _ => match p with
    | .run k => some (.run k)
    | .off => none
    | .idle => none
    | .pending => none
  | .readEmpty => match p with
    | .off => some .off
    | .idle => some .idle
    | .run k => some (.run k)
    | .pending => none
  | .readZero => match p with
    | .pending => some .idle
    | .off => none
    | .idle => none
    | .run _ => none
  | .readOk => match p with
    | .pending => some .idle
    | .off => none
    | .idle => none
    | .run _ => none
  | .readBad => match p with
    | .pending => some .idle
    | .off => none
    | .idle => none
    | .run _ => none

end Sys2Proof.Machine
end

