-- ==== Sys2Proof/Safety.lean ====
section
/-! DEFINITION. What counts as a good state and a good run, in the terms the statements use: the invariants of
spec/10_state.md R20 and the block's promise never to stop (spec/60_exceptions.md R100). -/

namespace Sys2Proof.Machine

/-- The next state of an outcome, if there is one. -/
def nextState : Host.Outcome State Fault Refusal → Option State
  | .next s => some s
  | .fault _ => none
  | .refused _ => none

/-- The five elements of DecoderState are 0 (R18). -/
abbrev DecoderClear (s : State) : Prop :=
  s.lastLevel = false ∧ s.lastTime = 0 ∧ s.bitCount = 0 ∧ s.acc = 0 ∧ s.frameComplete = false

/-- (I1) `0 <= BIT_COUNT <= 33` (R20). -/
abbrev CountBounded (s : State) : Prop := s.bitCount.toNat ≤ 33

/-- (I2) `FRAME_COMPLETE = 1` if and only if `BIT_COUNT = 33` (R20). -/
abbrev FlagIffDone (s : State) : Prop := s.frameComplete = true ↔ s.bitCount = 33

/-- (I3) `ARMED = 0` implies that DecoderState is 0 (R20). -/
abbrev DisarmedClear (s : State) : Prop := s.armed = false → DecoderClear s

/-- (I4) `BIT_COUNT = 0` implies `ACC = 0` (R20). -/
abbrev UncountedClear (s : State) : Prop := s.bitCount = 0 → s.acc = 0

/-- (I5) `BIT_COUNT = k` with k at most 31 implies `ACC[31-k:0] = 0` (R20): for every bit place j at most 31 - k. -/
abbrev LowBitsClear (s : State) : Prop := ∀ j < 32, s.bitCount.toNat + j < 32 → s.acc.getLsbD j = false

/-- The invariants of R20 together. -/
abbrev Inv (s : State) : Prop :=
  CountBounded s ∧ FlagIffDone s ∧ DisarmedClear s ∧ UncountedClear s ∧ LowBitsClear s

/-- A run of `n` steps of the machine the host runs. -/
def runSteps (n : Nat) (s : State) : Host.Outcome State Fault Refusal := core.run n s

/-- A run of `n` steps that neither faults nor is refused and ends in `t`. -/
abbrev RunsTo (n : Nat) (s t : State) : Prop := runSteps n s = .next t

/-- The event word is an `EDGE`. -/
abbrev IsEdge (ev : EventWord) : Prop := evOp ev = 0

/-- The event word is an `ENABLE`. -/
abbrev IsEnable (ev : EventWord) : Prop := evOp ev = 2

end Sys2Proof.Machine
end

