-- ==== Sys2Proof/Certificates/Slice0/Obligations.lean ====
section
/-! DEFINITION. The statements for the provers. Each says in its docstring which rule of spec/ it formalises. A statement about
every state holds in states no run reaches too; where one needs the invariants of R20 it names them as a premise. -/

open Sys2Proof Sys2Proof.Machine

/-! ### Encoding and the row that runs -/

/-- R41, R42: in every state that selects a row, decoding the row's event word gives the row, with every operand at every
value. -/
def Obligations.DecodeOfEncodeIsTheSelectedRow : Prop :=
  ∀ (i : Instr) (s : State), i.wf = true → selects i s = true → decodeAt s (encode i) = i

/-- R41: the fields of the event word, all four values of `op`, the ignored fields ignored on decode and 0 when written. -/
def Obligations.EventWordFieldsDecode : Prop :=
  (∀ (level : Bool) (ts : Word),
      decodeOperation ((0#2 ++ BitVec.ofBool level ++ ts : BitVec 35)) = .edge level ts) ∧
  (∀ x : BitVec 33, decodeOperation ((1#2 ++ x : BitVec 35)) = .read) ∧
  (∀ x : BitVec 33, decodeOperation ((2#2 ++ x : BitVec 35)) = .enable) ∧
  (∀ x : BitVec 33, decodeOperation ((3#2 ++ x : BitVec 35)) = .disable) ∧
  (∀ o : Operation, decodeOperation (encodeOperation o) = o) ∧
  (∀ ev : EventWord, (∃ level ts, decodeOperation ev = .edge level ts ∧ encodeOperation (.edge level ts) = ev) ∨
      (evOp ev ≠ 0 ∧ (encodeOperation (decodeOperation ev)).setWidth 33 = 0))

/-- The first five clauses are the example words of R41. The last five are the model's choice: that the decoder on numbers
answers an operation's first row (log 5, DEDUCED), and that it refuses a number with a bit above `EV[34]` (log 7, DESIGN
CHOICE). -/
def Obligations.ExampleEventWordsDecode : Prop :=
  decodeOperation 0x1000F4240 = .edge true 1000000 ∧ decodeOperation 0x0000F6568 = .edge false 1009000 ∧
  decodeOperation 0x200000000 = .read ∧ decodeOperation 0x400000000 = .enable ∧
  decodeOperation 0x600000000 = .disable ∧
  decodeTableWord 40 0x1000F4240 = some (.edgeOff true 1000000) ∧ decodeTableWord 40 0x200000000 = some .readEmpty ∧
  decodeTableWord 40 0x400000000 = some .enable ∧ decodeTableWord 40 0x600000000 = some .disable ∧
  decodeTableWord 40 0x800000000 = none

/-- R42: for every operation in every state exactly one row's condition holds, and it is the row the model runs, its operands
as its rule gives them; the row is the first of the rule's table whose condition, written out here, holds. -/
def Obligations.ExactlyOneRowIsSelected : Prop :=
  ∀ s : State,
    (∀ o : Operation,
      (operationOf (subcase s o) = o ∧ selects (subcase s o) s = true ∧ (subcase s o).wf = true) ∧
      ∀ i : Instr, operationOf i = o → selects i s = true → i = subcase s o) ∧
    (∀ (level : Bool) (ts : Word), subcase s (.edge level ts) =
      if s.armed = false then .edgeOff level ts
      else if s.frameComplete = true then .edgeHeld level ts
      else if ¬(s.lastLevel = false ∧ level = true) then .edgeSkip level ts
      else if 10800 ≤ (ts - s.lastTime).toNat ∧ (ts - s.lastTime).toNat ≤ 16875 then .edgeStart level ts
      else if 1800 ≤ (ts - s.lastTime).toNat ∧ (ts - s.lastTime).toNat ≤ 2812 then .edgeOne level ts
      else if 896 ≤ (ts - s.lastTime).toNat ∧ (ts - s.lastTime).toNat ≤ 1400 then .edgeZero level ts
      else if s.bitCount = 0 then .edgeNoise level ts
      else .edgeDesync level ts) ∧
    (subcase s .read =
      if s.frameComplete = false then .readEmpty
      else if s.acc = 0 then .readZero
      else if s.acc.extractLsb' 22 8 = crc8 (s.acc.extractLsb' 0 24) then .readOk
      else .readBad) ∧
    subcase s .enable = .enable ∧ subcase s .disable = .disable

/-- The model's choice (log 6, DEDUCED), resting on R41 and R42: two rows with one event word have one effect in every state,
also in a state that selects neither of them. -/
def Obligations.SameEventWordSameEffect : Prop :=
  ∀ (i j : Instr) (s : State), encode i = encode j → exec i s = exec j s

/-! ### The step -/

/-- R40, R35, R42: a step takes the oldest waiting event word and is the row it decodes to, on the state with that word
taken. The third clause is the model's choice (log 5 and log 6, DEDUCED): decoding without the state, to the operation's first
row, gives the same step. The waiting list is the model's own field (log 1). -/
def Obligations.StepRunsTheDecodedRow : Prop :=
  ∀ (s : State) (ev : EventWord) (rest : List EventWord), s.inputs = ev :: rest →
    (decodeAt s ev).wf = true ∧
    step s = exec (decodeAt s ev) { s with inputs := rest } ∧
    step s = exec (decode ev) { s with inputs := rest }

/-- The model's choice (log 2), resting on R19 "No operation other than the ones listed ... can change the state": with no
operation waiting a step changes nothing. -/
def Obligations.StepWithNothingWaitingChangesNothing : Prop :=
  ∀ s : State, s.inputs = [] → step s = .next s

/-- The model's interface (log 4, log 7): a table word placed as the next operation runs as the instruction the decoder reads
from it. That instruction is the operation's first row (log 5), whose effect in a state that selects another row is the model's
choice (log 6, DEDUCED). -/
def Obligations.PlacedTableWordRunsAsDecoded : Prop :=
  ∀ (s : State) (nbits w : Nat) (i : Instr), decodeTableWord nbits w = some i →
    step (s.withFetchWord nbits w) = exec i s

/-- R100: no operation raises an exception, blocks or faults, in any state for any operand: every row has a next state, every
step has one, and so has every run. -/
def Obligations.NothingEverStops : Prop :=
  (∀ (i : Instr) (s : State), ∃ t, exec i s = .next t) ∧ (∀ (n : Nat) (s : State), ∃ t, RunsTo n s t)

/-! ### EDGE, row by row -/

/-- R60. -/
def Obligations.EdgeOffChangesNothing : Prop :=
  ∀ (level : Bool) (ts : Word) (s : State), s.armed = false → exec (.edgeOff level ts) s = .next s

/-- R61: not `LAST_LEVEL` and not `LAST_TIME` either. -/
def Obligations.EdgeHeldChangesNothing : Prop :=
  ∀ (level : Bool) (ts : Word) (s : State), s.armed = true → s.frameComplete = true →
    exec (.edgeHeld level ts) s = .next s

/-- R62: the three pairs of levels that are no logical rising edge. -/
def Obligations.EdgeSkipTracksTheLevelOnly : Prop :=
  ∀ (level : Bool) (ts : Word) (s : State), s.armed = true → s.frameComplete = false →
    (s.lastLevel = true ∨ level = false) →
    exec (.edgeSkip level ts) s = .next { s with lastLevel := level }

/-- R64 (with R63's part). -/
def Obligations.EdgeStartSeedsTheFrame : Prop :=
  ∀ (ts : Word) (s : State), s.armed = true → s.frameComplete = false → s.lastLevel = false →
    10800 ≤ (ts - s.lastTime).toNat → (ts - s.lastTime).toNat ≤ 16875 →
    exec (.edgeStart true ts) s =
      .next { s with lastTime := ts, lastLevel := true, bitCount := 1, acc := 0 }

/-- R65 (with R63's part and R69), at every count (R70). -/
def Obligations.EdgeOneShiftsInAOne : Prop :=
  ∀ (ts : Word) (s : State), s.armed = true → s.frameComplete = false → s.lastLevel = false →
    1800 ≤ (ts - s.lastTime).toNat → (ts - s.lastTime).toNat ≤ 2812 →
    exec (.edgeOne true ts) s =
      .next { s with lastTime := ts, lastLevel := true, acc := s.acc >>> 1 ||| 0x80000000,
                     bitCount := s.bitCount + 1, frameComplete := decide (s.bitCount + 1 = 33) }

/-- R66 (with R63's part and R69), at every count (R70). -/
def Obligations.EdgeZeroShiftsInAZero : Prop :=
  ∀ (ts : Word) (s : State), s.armed = true → s.frameComplete = false → s.lastLevel = false →
    896 ≤ (ts - s.lastTime).toNat → (ts - s.lastTime).toNat ≤ 1400 →
    exec (.edgeZero true ts) s =
      .next { s with lastTime := ts, lastLevel := true, acc := s.acc >>> 1,
                     bitCount := s.bitCount + 1, frameComplete := decide (s.bitCount + 1 = 33) }

/-- R67 (with R63's part). -/
def Obligations.EdgeNoiseRecordsTheEdgeOnly : Prop :=
  ∀ (ts : Word) (s : State), s.armed = true → s.frameComplete = false → s.lastLevel = false →
    classify (ts - s.lastTime) = .none → s.bitCount = 0 →
    exec (.edgeNoise true ts) s = .next { s with lastTime := ts, lastLevel := true }

/-- R68 (with R63's part): counter, accumulator and flag unchanged. -/
def Obligations.EdgeDesyncRecordsTheEdgeOnly : Prop :=
  ∀ (ts : Word) (s : State), s.armed = true → s.frameComplete = false → s.lastLevel = false →
    classify (ts - s.lastTime) = .none → s.bitCount ≠ 0 →
    exec (.edgeDesync true ts) s = .next { s with lastTime := ts, lastLevel := true }

/-- Every accepted edge records its time and level; what it does besides is chosen by the class of the delta since the edge
before (R63). That this holds whatever row of `EDGE` names the edge, one the state does not select included, is the model's
choice (log 6, DEDUCED). -/
def Obligations.AcceptedEdgeRecordsTimeAndLevel : Prop :=
  ∀ (i : Instr) (ts : Word) (s : State), operationOf i = .edge true ts → s.armed = true →
    s.frameComplete = false → s.lastLevel = false →
    ∃ t, exec i s = .next t ∧ t.lastTime = ts ∧ t.lastLevel = true ∧ t.armed = s.armed ∧
      t.inputs = s.inputs ∧ t.results = s.results ∧
      t = (match classify (ts - s.lastTime) with
        | .start => seedFrame { s with lastTime := ts, lastLevel := true }
        | .one => shiftIn true { s with lastTime := ts, lastLevel := true }
        | .zero => shiftIn false { s with lastTime := ts, lastLevel := true }
        | .none => { s with lastTime := ts, lastLevel := true })

/-- The whole operation in its order of evaluation (R71), for every row of `EDGE` in every state. That a row is the whole
operation also where the state selects another row is the model's choice (log 6, DEDUCED). -/
def Obligations.EveryEdgeRowIsTheWholeListing : Prop :=
  ∀ (i : Instr) (level : Bool) (ts : Word) (s : State), operationOf i = .edge level ts →
    exec i s = .next
      (if s.armed = false then s
       else if s.frameComplete = true then s
       else if ¬(s.lastLevel = false ∧ level = true) then { s with lastLevel := level }
       else if 10800 ≤ (ts - s.lastTime).toNat ∧ (ts - s.lastTime).toNat ≤ 16875 then
         { s with lastTime := ts, lastLevel := true, bitCount := 1, acc := 0 }
       else if 1800 ≤ (ts - s.lastTime).toNat ∧ (ts - s.lastTime).toNat ≤ 2812 then
         { s with lastTime := ts, lastLevel := true, acc := s.acc >>> 1 ||| 0x80000000,
                  bitCount := s.bitCount + 1, frameComplete := decide (s.bitCount + 1 = 33) }
       else if 896 ≤ (ts - s.lastTime).toNat ∧ (ts - s.lastTime).toNat ≤ 1400 then
         { s with lastTime := ts, lastLevel := true, acc := s.acc >>> 1,
                  bitCount := s.bitCount + 1, frameComplete := decide (s.bitCount + 1 = 33) }
       else { s with lastTime := ts, lastLevel := true })

/-- The flag is set by exactly the accepted data bits that bring the count from 32 to 33 (R69). It is said of every row in
every state; that a row the state does not select does so too is the model's choice (log 6, DEDUCED). -/
def Obligations.FlagIsSetExactlyAtTheThirtyThirdCount : Prop :=
  ∀ (i : Instr) (s t : State), exec i s = .next t → s.frameComplete = false →
    ((t.frameComplete = true ↔
        ∃ ts, operationOf i = .edge true ts ∧ s.armed = true ∧ s.lastLevel = false ∧
          (classify (ts - s.lastTime) = .one ∨ classify (ts - s.lastTime) = .zero) ∧ s.bitCount = 32) ∧
      (t.frameComplete = true → t.bitCount = 33))

/-- A delta in no band, and levels that form no logical rising edge, disturb neither counter nor accumulator nor flag (R54). It
is said of every row of `EDGE` in every state; that a row the state does not select does so too is the model's choice (log 6,
DEDUCED). -/
def Obligations.OutOfBandAndFilteredEdgesDisturbNothing : Prop :=
  ∀ (i : Instr) (level : Bool) (ts : Word) (s : State), operationOf i = .edge level ts →
    (classify (ts - s.lastTime) = .none ∨ s.lastLevel = true ∨ level = false) →
    ∃ t, exec i s = .next t ∧ t.bitCount = s.bitCount ∧ t.acc = s.acc ∧ t.frameComplete = s.frameComplete

/-! ### READ, ENABLE, DISABLE -/

/-- R92. -/
def Obligations.ReadEmptyReturnsNothing : Prop :=
  ∀ s : State, s.frameComplete = false → exec .readEmpty s = .next { s with results := s.results ++ [0] }

/-- R96 (with R93's part). -/
def Obligations.ReadZeroDropsTheSentinel : Prop :=
  ∀ s : State, s.frameComplete = true → s.acc = 0 →
    exec .readZero s =
      .next { s with lastLevel := false, lastTime := 0, bitCount := 0, acc := 0, frameComplete := false,
                     results := s.results ++ [0] }

/-- R94 (with R93's part): the frame exactly as assembled. -/
def Obligations.ReadOkDeliversTheFrame : Prop :=
  ∀ s : State, s.frameComplete = true → s.acc ≠ 0 → valid s.acc = true →
    exec .readOk s =
      .next { s with lastLevel := false, lastTime := 0, bitCount := 0, acc := 0, frameComplete := false,
                     results := s.results ++ [s.acc] }

/-- R95 (with R93's part). -/
def Obligations.ReadBadDropsTheFrame : Prop :=
  ∀ s : State, s.frameComplete = true → s.acc ≠ 0 → valid s.acc = false →
    exec .readBad s =
      .next { s with lastLevel := false, lastTime := 0, bitCount := 0, acc := 0, frameComplete := false,
                     results := s.results ++ [0] }

/-- R90: in both values of `ARMED`. -/
def Obligations.EnableArmsAndClears : Prop :=
  ∀ s : State, exec .enable s =
    .next { s with armed := true, lastLevel := false, lastTime := 0, bitCount := 0, acc := 0, frameComplete := false }

/-- R91: the six elements become those of the power-on reset state. -/
def Obligations.DisableGivesThePowerOnState : Prop :=
  ∀ s : State, exec .disable s =
      .next { s with armed := false, lastLevel := false, lastTime := 0, bitCount := 0, acc := 0, frameComplete := false } ∧
    exec .disable s = .next { State.reset with inputs := s.inputs, results := s.results }

/-- R90, R91: "Idempotent." -/
def Obligations.EnableAndDisableAreIdempotent : Prop :=
  ∀ s : State, (∃ t, exec .enable s = .next t ∧ exec .enable t = .next t) ∧
    (∃ t, exec .disable s = .next t ∧ exec .disable t = .next t)

/-- A `READ` of a pending frame frees the slot and answers the frame or nothing, `ARMED` kept (R93, with R94 to R96). That
every row of `READ` does so, one the state does not select included, is the model's choice (log 6, DEDUCED). -/
def Obligations.ConsumingReadFreesTheSlot : Prop :=
  ∀ (i : Instr) (s : State), operationOf i = .read → s.frameComplete = true →
    ∃ t r, exec i s = .next t ∧ DecoderClear t ∧ t.armed = s.armed ∧ t.inputs = s.inputs ∧
      t.results = s.results ++ [r] ∧
      r = (if s.acc ≠ 0 ∧ s.acc.extractLsb' 22 8 = crc8 (s.acc.extractLsb' 0 24) then s.acc else 0)

/-- Whatever a row returns other than 0 is a complete, valid, non-zero frame as assembled, and the slot is free afterwards
(R24, R50, R94). It is said of every row in every state; that a row the state does not select keeps to it too is the model's
choice (log 6, DEDUCED). -/
def Obligations.OnlyCompleteValidFramesAreDelivered : Prop :=
  ∀ (i : Instr) (s t : State) (r : Word), exec i s = .next t → t.results = s.results ++ [r] → r ≠ 0 →
    s.frameComplete = true ∧ r = s.acc ∧ r.extractLsb' 22 8 = crc8 (r.extractLsb' 0 24) ∧ DecoderClear t

/-- R122: a reset of the decoder delivers nothing and discards what `ACC` held. -/
def Obligations.OnlyReadMovesAFrameOut : Prop :=
  ∀ (i : Instr) (s : State), operationOf i ≠ .read →
    ∃ t, exec i s = .next t ∧ t.results = s.results ∧
      (operationOf i = .enable ∨ operationOf i = .disable → t.acc = 0 ∧ t.frameComplete = false)

/-- R19: who writes what. -/
def Obligations.EachElementHasItsWriters : Prop :=
  ∀ (i : Instr) (s t : State), exec i s = .next t →
    ((∀ level ts, operationOf i ≠ .edge level ts) →
      DecoderClear t ∨ (t.lastLevel = s.lastLevel ∧ t.lastTime = s.lastTime ∧ t.bitCount = s.bitCount ∧
        t.acc = s.acc ∧ t.frameComplete = s.frameComplete)) ∧
    (operationOf i ≠ .enable → operationOf i ≠ .disable → t.armed = s.armed) ∧
    (operationOf i ≠ .read → t.results = s.results) ∧
    ((∃ level ts, operationOf i = .edge level ts) → s.frameComplete = true → t.frameComplete = true) ∧
    t.inputs = s.inputs

/-! ### Reset and invariants -/

/-- R17, R120. -/
def Obligations.PowerOnResetClearsEveryElement : Prop :=
  State.reset.armed = false ∧ State.reset.lastLevel = false ∧ State.reset.lastTime = 0 ∧
    State.reset.bitCount = 0 ∧ State.reset.acc = 0 ∧ State.reset.frameComplete = false

/-- R20: the invariants I1 to I5 hold after reset. -/
def Obligations.ResetMeetsTheFiveInvariants : Prop := Inv State.reset

/-- R20: every step keeps the invariants I1 to I5. -/
def Obligations.StepKeepsTheFiveInvariants : Prop :=
  ∀ s t : State, Inv s → step s = .next t → Inv t

/-- R97: the complete table of transitions between the phases of R21; every state of the invariants has a phase. -/
def Obligations.PhasesMoveAsTheTableSays : Prop :=
  (∀ s : State, Inv s → ∃ p, phase s = some p) ∧
  ∀ (i : Instr) (s : State) (p : Phase), Inv s → selects i s = true → phase s = some p →
    ∃ t q, exec i s = .next t ∧ nextPhase p i = some q ∧ phase t = some q

/-- R123: a disabled, clear block stays so, whatever operations arrive, until an `ENABLE`; its polls return nothing. -/
def Obligations.DisabledBlockDoesNothingUntilEnable : Prop :=
  ∀ (s : State) (evs rest : List EventWord), s.armed = false → DecoderClear s →
    (∀ ev ∈ evs, ¬IsEnable ev) → s.inputs = evs ++ rest →
    ∃ t, RunsTo evs.length s t ∧ t.armed = false ∧ DecoderClear t ∧ t.inputs = rest ∧
      t.results = s.results ++ List.replicate (evs.countP (fun ev => evOp ev == 1)) 0

/-- R129: the first accepted edge after `ENABLE` is measured against 0. -/
def Obligations.FirstDeltaAfterEnableIsTheTimestamp : Prop :=
  ∀ (s : State) (ts : Word), ∃ t, exec .enable s = .next t ∧ delta t.lastTime ts = ts ∧ accepts true t = true

/-! ### Deltas and symbols -/

/-- R7, R63: the delta is the one word that, added to the earlier timestamp modulo 2^32, gives the later one. -/
def Obligations.DeltaIsModularDifference : Prop :=
  ∀ a b d : Word, (b + d = a ↔ d = delta b a) ∧ (delta b a).toNat = (a.toNat + 2 ^ 32 - b.toNat) % 2 ^ 32

/-- R44: the closed integer bands, which are the exact rational bands 0.8 to 1/0.8 of the reference periods of R4. -/
def Obligations.ClassifyIsTheClosedBands : Prop :=
  ∀ d : Word,
    (classify d = .start ↔ 10800 ≤ d.toNat ∧ d.toNat ≤ 16875) ∧
    (classify d = .one ↔ 1800 ≤ d.toNat ∧ d.toNat ≤ 2812) ∧
    (classify d = .zero ↔ 896 ≤ d.toNat ∧ d.toNat ≤ 1400) ∧
    (classify d = .start ↔ 4 * Config.tStart ≤ 5 * d.toNat ∧ 4 * d.toNat ≤ 5 * Config.tStart) ∧
    (classify d = .one ↔ 4 * Config.tOne ≤ 5 * d.toNat ∧ 4 * d.toNat ≤ 5 * Config.tOne) ∧
    (classify d = .zero ↔ 4 * Config.tZero ≤ 5 * d.toNat ∧ 4 * d.toNat ≤ 5 * Config.tZero)

/-! ### The checksum -/

/-- R83: `CRC8` is linear and is the XOR of the columns of the rule's table over the set bits of its input. -/
def Obligations.CrcIsTheXorOfItsColumns : Prop :=
  (∀ p q : CrcInput, crc8 (p ^^^ q) = crc8 p ^^^ crc8 q) ∧
  ∀ p : CrcInput, crc8 p =
    (([0x07, 0x0E, 0x1C, 0x38, 0x71, 0xE2, 0xC7, 0x89, 0x15, 0x2A, 0x54, 0xAA, 0x56, 0xAC, 0x5B, 0xB6, 0x6B, 0xD6,
       0xAB, 0x51, 0xA2, 0x43, 0x86, 0x0B] : List Byte).zipIdx.foldl
      (fun r c => if p.getLsbD c.2 then r ^^^ c.1 else r) 0)

/-- R84: output bit k is the parity of the input masked with `PAR[k]`. -/
def Obligations.CrcBitsAreParityTrees : Prop :=
  ∀ (p : CrcInput) (k : Nat) (par : CrcInput),
    ([0xAD41D1, 0xF7DA63, 0x42B547, 0x856A8E, 0x0AD51C, 0x15AA38, 0x2B5470, 0x56A8E0] : List CrcInput)[k]? = some par →
    (crc8 p).getLsbD k = ((List.range 24).map (p &&& par).getLsbD).foldl (· ^^ ·) false

/-- R82: the whole frame may be fed to the network, since no mask selects an input bit above 23. -/
def Obligations.CrcNetworkIgnoresHighBits : Prop :=
  ∀ w : Word, crcFold (crcTerms w) = crc8 (w.extractLsb' 0 24)

/-- R85: the recomputed checksum XOR-ed into bits 29:22 leaves them 0 exactly if the field holds the checksum. -/
def Obligations.ValidExactlyWhenFieldHoldsTheChecksum : Prop :=
  ∀ w : Word,
    (valid w = true ↔ (w ^^^ (crc8 (w.extractLsb' 0 24)).setWidth 32 <<< 22).extractLsb' 22 8 = 0) ∧
    (valid w = true ↔ w.extractLsb' 22 8 = crc8 (w.extractLsb' 0 24))

/-- `VALID(0)` holds, yet a `READ` does not deliver a pending frame equal to 0 (R86, R96). That every row of `READ` answers 0
there, the three the state does not select included, is the model's choice (log 6, DEDUCED). -/
def Obligations.SentinelIsValidButNeverDelivered : Prop :=
  valid 0 = true ∧
  ∀ (i : Instr) (s : State), operationOf i = .read → s.frameComplete = true → s.acc = 0 →
    ∃ t, exec i s = .next t ∧ t.results = s.results ++ [0]

/-- R87 (a), (b): one or two flipped bits among 0 to 29 of a valid frame are detected. -/
def Obligations.SingleAndDoubleBitErrorsAreDetected : Prop :=
  ∀ (w : Word) (i j : Nat), valid w = true → i < 30 → j < 30 → i ≠ j →
    valid (w ^^^ 1#32 <<< i) = false ∧ valid (w ^^^ 1#32 <<< i ^^^ 1#32 <<< j) = false

/-- R87 (c): of the triples of flipped bits among 0 to 29 exactly the 23 listed in 95_test_vectors.md V-CRC-9 are not
detected. -/
def Obligations.ExactlyTwentyThreeTripleErrorsEscape : Prop :=
  ∀ (w : Word) (i j k : Nat), valid w = true → i < j → j < k → k < 30 →
    (valid (w ^^^ 1#32 <<< i ^^^ 1#32 <<< j ^^^ 1#32 <<< k) = true ↔
      (i, j, k) ∈ [(0, 1, 23), (0, 12, 19), (0, 13, 18), (0, 22, 29), (1, 7, 22), (1, 13, 20), (2, 8, 23), (2, 11, 15),
        (4, 6, 15), (4, 9, 14), (4, 19, 27), (5, 7, 16), (5, 10, 15), (5, 20, 28), (6, 13, 16), (6, 22, 28), (7, 23, 29),
        (8, 12, 21), (9, 11, 29), (11, 20, 25), (12, 17, 29), (17, 19, 22), (18, 20, 23)])

/-- R51, R87 (d): the two unused bits take no part in the test. -/
def Obligations.UnusedBitsAreNeverTested : Prop :=
  ∀ (w : Word) (u : BitVec 2), valid (w ^^^ u.setWidth 32 <<< 30) = valid w

/-- R88: for a payload and unused bits exactly one checksum field makes the frame valid, that of `SEAL`. -/
def Obligations.SealIsTheOneValidChecksum : Prop :=
  ∀ (payload : BitVec 22) (crc : Byte) (unused : BitVec 2),
    valid (frameOf payload crc unused) = true ↔ crc = sealCrc payload

/-- R48: the fields sit at their bit positions, and extraction and insertion are inverse. -/
def Obligations.PacketFieldsSitAtTheirBits : Prop :=
  (∀ w : Word, packetOf w =
    { channel := w.extractLsb' 0 1, team := w.extractLsb' 1 3, action := w.extractLsb' 4 2,
      actionParam := w.extractLsb' 6 4, playerId := w.extractLsb' 10 12, crc := w.extractLsb' 22 8,
      unused := w.extractLsb' 30 2 }) ∧
  (∀ p : Packet, (packetWord p).toNat = p.channel.toNat + 2 ^ 1 * p.team.toNat + 2 ^ 4 * p.action.toNat +
    2 ^ 6 * p.actionParam.toNat + 2 ^ 10 * p.playerId.toNat + 2 ^ 22 * p.crc.toNat + 2 ^ 30 * p.unused.toNat) ∧
  (∀ w : Word, packetWord (packetOf w) = w) ∧ (∀ p : Packet, packetOf (packetWord p) = p)

/-! ### Runs of operations -/

/-- R35, R61: while a frame is pending, any number of edges leaves the whole state, and so the frame a `READ` will take, as
the completing edge left it. -/
def Obligations.PendingFrameSurvivesAnyEdges : Prop :=
  ∀ (s : State) (evs rest : List EventWord), s.frameComplete = true → (∀ ev ∈ evs, IsEdge ev) →
    s.inputs = evs ++ rest → RunsTo evs.length s { s with inputs := rest }

/-- R92, R34: with no frame pending, any number of polls returns nothing each time and disturbs nothing. -/
def Obligations.PollsDoNotDisturbAPartialFrame : Prop :=
  ∀ (s : State) (evs rest : List EventWord), s.frameComplete = false → (∀ ev ∈ evs, evOp ev = 1) →
    s.inputs = evs ++ rest →
    RunsTo evs.length s { s with inputs := rest, results := s.results ++ List.replicate evs.length 0 }

/-- R34: `READ` is a destructive read; a second `READ` returns nothing. -/
def Obligations.SecondReadReturnsNothing : Prop :=
  ∀ (s : State) (ev₁ ev₂ : EventWord) (rest : List EventWord), evOp ev₁ = 1 → evOp ev₂ = 1 →
    s.frameComplete = true → s.inputs = ev₁ :: ev₂ :: rest →
    ∃ t r, RunsTo 2 s t ∧ t.results = s.results ++ [r, 0] ∧ (r = s.acc ∨ r = 0) ∧ DecoderClear t ∧
      t.armed = s.armed ∧ t.inputs = rest

/-- R108 (a): the edge that completes a frame against a `READ`, in either order and with one more `READ` behind. The poll that
comes first after the edge gets what the completed frame `shiftedAcc bit s.acc` yields, the frame itself if it is valid and not
0 and else 0 (R94 to R96); the other poll gets 0; the end state is the same. -/
def Obligations.CompletingEdgeAndReadCommuteUpToWhichPollAnswers : Prop :=
  ∀ (s : State) (ts : Word) (bit : Bool) (rd : EventWord) (rest : List EventWord), evOp rd = 1 →
    s.armed = true → s.frameComplete = false → s.lastLevel = false → s.bitCount = 32 →
    classify (ts - s.lastTime) = (if bit then .one else .zero) →
    ∃ t u x, RunsTo 3 { s with inputs := rise ts :: rd :: rd :: rest } t ∧
      RunsTo 3 { s with inputs := rd :: rise ts :: rd :: rest } u ∧
      x = (if shiftedAcc bit s.acc ≠ 0 ∧ valid (shiftedAcc bit s.acc) = true then shiftedAcc bit s.acc else 0) ∧
      t.results = s.results ++ [x, 0] ∧ u.results = s.results ++ [0, x] ∧
      t = { u with results := t.results } ∧ DecoderClear t ∧ t.armed = true ∧ t.inputs = rest

/-- R47 (with R43, R46, R69): the data bits of the cells after a start marker, whatever their periods within the bands and
their falling edges: after the k-th, bit `31 - (k - j)` of `ACC` is the j-th (counted from 1), all lower bits are 0, and the
32nd completes the frame. -/
def Obligations.CellsAssembleFirstBitLowest : Prop :=
  ∀ (s : State) (cells : List Cell) (bits : List Bool) (rest : List EventWord),
    s.armed = true → s.frameComplete = false → s.lastLevel = true → s.bitCount = 1 → s.acc = 0 →
    cells.map cellBit = bits.map some → bits.length ≤ 32 → s.inputs = cellEdges s.lastTime cells ++ rest →
    ∃ t, RunsTo (2 * bits.length) s t ∧ t.bitCount.toNat = 1 + bits.length ∧
      t.frameComplete = decide (bits.length = 32) ∧
      (∀ j < bits.length, some (t.acc.getLsbD (32 - bits.length + j)) = bits[j]?) ∧
      (∀ j < 32 - bits.length, t.acc.getLsbD j = false) ∧
      t.lastTime = lastRise s.lastTime cells ∧ t.lastLevel = true ∧ t.armed = true ∧ t.inputs = rest ∧
      t.results = s.results

/-- R70 (with R128): data bits with no start marker are counted from 0; fewer than 33 complete nothing, and the 33rd completes
a frame that holds data bits 2 to 33. -/
def Obligations.UnseededCellsCompleteAtThirtyThree : Prop :=
  ∀ (s : State) (cells : List Cell) (bits : List Bool) (rest : List EventWord),
    s.armed = true → s.frameComplete = false → s.lastLevel = true → s.bitCount = 0 → s.acc = 0 →
    cells.map cellBit = bits.map some → bits.length ≤ 33 → s.inputs = cellEdges s.lastTime cells ++ rest →
    ∃ t, RunsTo (2 * bits.length) s t ∧ t.bitCount.toNat = bits.length ∧
      t.frameComplete = decide (bits.length = 33) ∧
      (bits.length = 33 → ∀ j < 32, some (t.acc.getLsbD j) = bits[j + 1]?) ∧
      t.armed = true ∧ t.inputs = rest ∧ t.results = s.results

/-- R46, R56, R94 to R96 (D0's first property): a frame sent as `FRAME w @t0` to an armed, empty-slotted block whose line is
idle, whatever was half assembled (but not one bit short), is pending after its 68 operations as `w`, and the next `READ`
returns `w` if it is valid and not 0, else nothing. -/
def Obligations.TransmittedFrameIsReceivedAndDelivered : Prop :=
  ∀ (s : State) (w t0 : Word) (rd : EventWord) (rest : List EventWord), evOp rd = 1 →
    s.armed = true → s.frameComplete = false → s.lastLevel = false → s.bitCount ≠ 32 →
    s.inputs = frameEvents w t0 ++ rd :: rest →
    ∃ t u, RunsTo 68 s t ∧ t.frameComplete = true ∧ t.bitCount = 33 ∧ t.acc = w ∧ t.results = s.results ∧
      RunsTo 69 s u ∧ DecoderClear u ∧ u.armed = true ∧ u.inputs = rest ∧
      u.results = s.results ++ [if w ≠ 0 ∧ valid w = true then w else 0]
end

