-- ==== Sys2Proof/Laws/Decode.lean ====
section
/-! SUPPORT. Reading a packed event word gives back its fields (R41), and reading an encoded operation the operation. -/

namespace Sys2Proof

/-- The bits of a packed event word (R41). -/
theorem packEvent_getLsbD (op : BitVec 2) (level : Bool) (ts : Word) (i : Nat) :
    (packEvent op level ts).getLsbD i =
      if i < 32 then ts.getLsbD i else if i = 32 then level else op.getLsbD (i - 33) := by
  have h : (packEvent op level ts).getLsbD i = BitVec.getLsbD (w := 2 + 1 + 32) (op ++ BitVec.ofBool level ++ ts) i := rfl
  rw [h, BitVec.getLsbD_append]
  split
  · rfl
  · next h32 =>
    rw [BitVec.getLsbD_append]
    by_cases h33 : i = 32
    · subst h33; simp
    · rw [if_neg h33, if_neg (by omega), show i - 32 - 1 = i - 33 by omega]

theorem evOp_packEvent (op : BitVec 2) (level : Bool) (ts : Word) : evOp (packEvent op level ts) = op := by
  apply BitVec.eq_of_getLsbD_eq
  intro i hi
  rw [evOp, BitVec.getLsbD_extractLsb', packEvent_getLsbD, if_neg (by omega), if_neg (by omega)]
  simp [hi]

theorem evLevel_packEvent (op : BitVec 2) (level : Bool) (ts : Word) : evLevel (packEvent op level ts) = level := by
  simp only [evLevel, packEvent_getLsbD]
  simp

theorem evTs_packEvent (op : BitVec 2) (level : Bool) (ts : Word) : evTs (packEvent op level ts) = ts := by
  apply BitVec.eq_of_getLsbD_eq
  intro i hi
  rw [evTs, BitVec.getLsbD_extractLsb', packEvent_getLsbD, if_pos (by omega)]
  simp [hi]

/-- An event word is its three fields (R41). -/
theorem packEvent_fields (ev : EventWord) : packEvent (evOp ev) (evLevel ev) (evTs ev) = ev := by
  apply BitVec.eq_of_getLsbD_eq
  intro i hi
  rw [packEvent_getLsbD]
  split
  · next h => rw [evTs, BitVec.getLsbD_extractLsb']; simp [h]
  · split
    · next h => subst h; rfl
    · next h32 h33 =>
      rw [evOp, BitVec.getLsbD_extractLsb', show 33 + (i - 33) = i by omega]
      simp [show i - 33 < 2 by omega]

theorem decodeOperation_packEvent (op : BitVec 2) (level : Bool) (ts : Word) :
    decodeOperation (packEvent op level ts) =
      if op = 0 then .edge level ts else if op = 1 then .read else if op = 2 then .enable else .disable := by
  simp [decodeOperation, evOp_packEvent, evLevel_packEvent, evTs_packEvent]

/-- Decoding an encoded operation gives it back. -/
@[simp] theorem decodeOperation_encodeOperation (o : Operation) : decodeOperation (encodeOperation o) = o := by
  cases o <;> simp [encodeOperation, decodeOperation_packEvent]

/-- A number of at most 35 bits is its event word. -/
theorem eventWordOf_lt (w : Nat) (h : w < 2 ^ 35) : eventWordOf w = .ok (BitVec.ofNat 35 w) := by
  rw [eventWordOf, if_pos h]

/-- A wider number is refused by name. -/
theorem eventWordOf_ge (w : Nat) (h : 2 ^ 35 ≤ w) : eventWordOf w = .error (.notAnEventWord w) := by
  simp only [eventWordOf]
  rw [if_neg (by omega)]

end Sys2Proof
end

