-- ==== Sys2Proof/Laws/State.lean ====
section
/-! SUPPORT. One lemma per field of State per named update, each true by rfl, so that no later proof unfolds a record
update. -/

namespace Sys2Proof.Machine

@[simp] theorem decoderReset_armed (s : State) : (decoderReset s).armed = s.armed := rfl
@[simp] theorem decoderReset_lastLevel (s : State) : (decoderReset s).lastLevel = false := rfl
@[simp] theorem decoderReset_lastTime (s : State) : (decoderReset s).lastTime = 0 := rfl
@[simp] theorem decoderReset_bitCount (s : State) : (decoderReset s).bitCount = 0 := rfl
@[simp] theorem decoderReset_acc (s : State) : (decoderReset s).acc = 0 := rfl
@[simp] theorem decoderReset_frameComplete (s : State) : (decoderReset s).frameComplete = false := rfl
@[simp] theorem decoderReset_inputs (s : State) : (decoderReset s).inputs = s.inputs := rfl
@[simp] theorem decoderReset_results (s : State) : (decoderReset s).results = s.results := rfl

@[simp] theorem setArmed_armed (b : Bool) (s : State) : (setArmed b s).armed = b := rfl
@[simp] theorem setArmed_lastLevel (b : Bool) (s : State) : (setArmed b s).lastLevel = s.lastLevel := rfl
@[simp] theorem setArmed_lastTime (b : Bool) (s : State) : (setArmed b s).lastTime = s.lastTime := rfl
@[simp] theorem setArmed_bitCount (b : Bool) (s : State) : (setArmed b s).bitCount = s.bitCount := rfl
@[simp] theorem setArmed_acc (b : Bool) (s : State) : (setArmed b s).acc = s.acc := rfl
@[simp] theorem setArmed_frameComplete (b : Bool) (s : State) : (setArmed b s).frameComplete = s.frameComplete := rfl
@[simp] theorem setArmed_inputs (b : Bool) (s : State) : (setArmed b s).inputs = s.inputs := rfl
@[simp] theorem setArmed_results (b : Bool) (s : State) : (setArmed b s).results = s.results := rfl

@[simp] theorem trackLevel_armed (level : Bool) (s : State) : (trackLevel level s).armed = s.armed := rfl
@[simp] theorem trackLevel_lastLevel (level : Bool) (s : State) : (trackLevel level s).lastLevel = level := rfl
@[simp] theorem trackLevel_lastTime (level : Bool) (s : State) : (trackLevel level s).lastTime = s.lastTime := rfl
@[simp] theorem trackLevel_bitCount (level : Bool) (s : State) : (trackLevel level s).bitCount = s.bitCount := rfl
@[simp] theorem trackLevel_acc (level : Bool) (s : State) : (trackLevel level s).acc = s.acc := rfl
@[simp] theorem trackLevel_frameComplete (level : Bool) (s : State) : (trackLevel level s).frameComplete = s.frameComplete := rfl
@[simp] theorem trackLevel_inputs (level : Bool) (s : State) : (trackLevel level s).inputs = s.inputs := rfl
@[simp] theorem trackLevel_results (level : Bool) (s : State) : (trackLevel level s).results = s.results := rfl

@[simp] theorem recordEdge_armed (ts : Word) (s : State) : (recordEdge ts s).armed = s.armed := rfl
@[simp] theorem recordEdge_lastLevel (ts : Word) (s : State) : (recordEdge ts s).lastLevel = true := rfl
@[simp] theorem recordEdge_lastTime (ts : Word) (s : State) : (recordEdge ts s).lastTime = ts := rfl
@[simp] theorem recordEdge_bitCount (ts : Word) (s : State) : (recordEdge ts s).bitCount = s.bitCount := rfl
@[simp] theorem recordEdge_acc (ts : Word) (s : State) : (recordEdge ts s).acc = s.acc := rfl
@[simp] theorem recordEdge_frameComplete (ts : Word) (s : State) : (recordEdge ts s).frameComplete = s.frameComplete := rfl
@[simp] theorem recordEdge_inputs (ts : Word) (s : State) : (recordEdge ts s).inputs = s.inputs := rfl
@[simp] theorem recordEdge_results (ts : Word) (s : State) : (recordEdge ts s).results = s.results := rfl

@[simp] theorem seedFrame_armed (s : State) : (seedFrame s).armed = s.armed := rfl
@[simp] theorem seedFrame_lastLevel (s : State) : (seedFrame s).lastLevel = s.lastLevel := rfl
@[simp] theorem seedFrame_lastTime (s : State) : (seedFrame s).lastTime = s.lastTime := rfl
@[simp] theorem seedFrame_bitCount (s : State) : (seedFrame s).bitCount = 1 := rfl
@[simp] theorem seedFrame_acc (s : State) : (seedFrame s).acc = 0 := rfl
@[simp] theorem seedFrame_frameComplete (s : State) : (seedFrame s).frameComplete = s.frameComplete := rfl
@[simp] theorem seedFrame_inputs (s : State) : (seedFrame s).inputs = s.inputs := rfl
@[simp] theorem seedFrame_results (s : State) : (seedFrame s).results = s.results := rfl

@[simp] theorem countBit_armed (s : State) : (countBit s).armed = s.armed := rfl
@[simp] theorem countBit_lastLevel (s : State) : (countBit s).lastLevel = s.lastLevel := rfl
@[simp] theorem countBit_lastTime (s : State) : (countBit s).lastTime = s.lastTime := rfl
@[simp] theorem countBit_bitCount (s : State) : (countBit s).bitCount = s.bitCount + 1 := rfl
@[simp] theorem countBit_acc (s : State) : (countBit s).acc = s.acc := rfl
@[simp] theorem countBit_frameComplete (s : State) : (countBit s).frameComplete = (completes s.bitCount || s.frameComplete) := rfl
@[simp] theorem countBit_inputs (s : State) : (countBit s).inputs = s.inputs := rfl
@[simp] theorem countBit_results (s : State) : (countBit s).results = s.results := rfl

@[simp] theorem shiftIn_armed (bit : Bool) (s : State) : (shiftIn bit s).armed = s.armed := rfl
@[simp] theorem shiftIn_lastLevel (bit : Bool) (s : State) : (shiftIn bit s).lastLevel = s.lastLevel := rfl
@[simp] theorem shiftIn_lastTime (bit : Bool) (s : State) : (shiftIn bit s).lastTime = s.lastTime := rfl
@[simp] theorem shiftIn_bitCount (bit : Bool) (s : State) : (shiftIn bit s).bitCount = s.bitCount + 1 := rfl
@[simp] theorem shiftIn_acc (bit : Bool) (s : State) : (shiftIn bit s).acc = shiftedAcc bit s.acc := rfl
@[simp] theorem shiftIn_frameComplete (bit : Bool) (s : State) : (shiftIn bit s).frameComplete = (completes s.bitCount || s.frameComplete) := rfl
@[simp] theorem shiftIn_inputs (bit : Bool) (s : State) : (shiftIn bit s).inputs = s.inputs := rfl
@[simp] theorem shiftIn_results (bit : Bool) (s : State) : (shiftIn bit s).results = s.results := rfl

@[simp] theorem returnResult_armed (r : Word) (s : State) : (returnResult r s).armed = s.armed := rfl
@[simp] theorem returnResult_lastLevel (r : Word) (s : State) : (returnResult r s).lastLevel = s.lastLevel := rfl
@[simp] theorem returnResult_lastTime (r : Word) (s : State) : (returnResult r s).lastTime = s.lastTime := rfl
@[simp] theorem returnResult_bitCount (r : Word) (s : State) : (returnResult r s).bitCount = s.bitCount := rfl
@[simp] theorem returnResult_acc (r : Word) (s : State) : (returnResult r s).acc = s.acc := rfl
@[simp] theorem returnResult_frameComplete (r : Word) (s : State) : (returnResult r s).frameComplete = s.frameComplete := rfl
@[simp] theorem returnResult_inputs (r : Word) (s : State) : (returnResult r s).inputs = s.inputs := rfl
@[simp] theorem returnResult_results (r : Word) (s : State) : (returnResult r s).results = s.results ++ [r] := rfl

@[simp] theorem issue_armed (ev : EventWord) (s : State) : (issue ev s).armed = s.armed := rfl
@[simp] theorem issue_lastLevel (ev : EventWord) (s : State) : (issue ev s).lastLevel = s.lastLevel := rfl
@[simp] theorem issue_lastTime (ev : EventWord) (s : State) : (issue ev s).lastTime = s.lastTime := rfl
@[simp] theorem issue_bitCount (ev : EventWord) (s : State) : (issue ev s).bitCount = s.bitCount := rfl
@[simp] theorem issue_acc (ev : EventWord) (s : State) : (issue ev s).acc = s.acc := rfl
@[simp] theorem issue_frameComplete (ev : EventWord) (s : State) : (issue ev s).frameComplete = s.frameComplete := rfl
@[simp] theorem issue_inputs (ev : EventWord) (s : State) : (issue ev s).inputs = s.inputs ++ [ev] := rfl
@[simp] theorem issue_results (ev : EventWord) (s : State) : (issue ev s).results = s.results := rfl

@[simp] theorem idle_eq (s : State) : idle s = s := rfl

/-- Clearing twice is clearing once (R18). -/
@[simp] theorem decoderReset_decoderReset (s : State) : decoderReset (decoderReset s) = decoderReset s := rfl

/-- `DecoderReset()` leaves DecoderState 0 (R18), with no read of what it was. -/
theorem decoderReset_congr (s t : State) (ha : s.armed = t.armed) (hi : s.inputs = t.inputs)
    (hr : s.results = t.results) : decoderReset s = decoderReset t := by
  cases s; cases t; simp_all [decoderReset]

end Sys2Proof.Machine
end

