-- ==== Sys2Proof/Laws/Ops.lean ====
section
/-! SUPPORT. For each shared operation, what it can do, said once: the bands, the completion test, the data-bit operation, and
the two whole-operation listings as equations under their conditions and as one inversion lemma each. -/

namespace Sys2Proof.Machine

theorem inBand_iff (lo hi : Nat) (d : Word) : inBand lo hi d = true ↔ lo ≤ d.toNat ∧ d.toNat ≤ hi := by
  simp [inBand]

theorem classify_start_iff (d : Word) : classify d = .start ↔ 10800 ≤ d.toNat ∧ d.toNat ≤ 16875 := by
  simp only [classify, inBand_iff, startLo, startHi, oneLo, oneHi, zeroLo, zeroHi]
  constructor
  · intro h
    split at h
    · assumption
    · split at h
      · cases h
      · split at h <;> cases h
  · intro h
    rw [if_pos h]

theorem classify_one_iff (d : Word) : classify d = .one ↔ 1800 ≤ d.toNat ∧ d.toNat ≤ 2812 := by
  simp only [classify, inBand_iff, startLo, startHi, oneLo, oneHi, zeroLo, zeroHi]
  constructor
  · intro h
    split at h
    · cases h
    · split at h
      · assumption
      · split at h <;> cases h
  · intro h
    rw [if_neg (by omega), if_pos h]

theorem classify_zero_iff (d : Word) : classify d = .zero ↔ 896 ≤ d.toNat ∧ d.toNat ≤ 1400 := by
  simp only [classify, inBand_iff, startLo, startHi, oneLo, oneHi, zeroLo, zeroHi]
  constructor
  · intro h
    split at h
    · cases h
    · split at h
      · cases h
      · split at h
        · assumption
        · cases h
  · intro h
    rw [if_neg (by omega), if_neg (by omega), if_pos h]

/-- The completion test is equality of the old count with 32, over all 64 counts (R69). -/
theorem completes_iff (count : Count) : completes count = true ↔ count = 32 := by
  revert count; decide

theorem completes_eq_decide (count : Count) : completes count = decide (count = 32) := by
  rw [Bool.eq_iff_iff, completes_iff, decide_eq_true_iff]

/-- A data bit enters at bit 31 and the rest moves down by one (R65, R66). -/
theorem shiftedAcc_getLsbD (bit : Bool) (a : Word) (j : Nat) (hj : j < 32) :
    (shiftedAcc bit a).getLsbD j = if j = 31 then bit else a.getLsbD (j + 1) := by
  cases bit
  · simp only [shiftedAcc, Bool.false_eq_true, if_false, BitVec.getLsbD_ushiftRight]
    split
    · next h => subst h; exact BitVec.getLsbD_of_ge a 32 (by omega)
    · rw [Nat.add_comm]
  · simp only [shiftedAcc, if_true, BitVec.getLsbD_or, BitVec.getLsbD_ushiftRight]
    have h : BitVec.getLsbD (2147483648 : Word) j = decide (j = 31) := by
      revert j; decide
    split
    · next h31 => subst h31; rw [h]; simp
    · next h31 => rw [h, Nat.add_comm 1 j]; simp [h31]

theorem edgeOperation_off {s : State} (level : Bool) (ts : Word) (ha : s.armed = false) :
    edgeOperation level ts s = s := by
  simp [edgeOperation, ha]

theorem edgeOperation_held {s : State} (level : Bool) (ts : Word) (hf : s.frameComplete = true) :
    edgeOperation level ts s = s := by
  simp [edgeOperation, hf]

theorem edgeOperation_skip {s : State} {level : Bool} (ts : Word) (ha : s.armed = true)
    (hf : s.frameComplete = false) (hl : ¬(s.lastLevel = false ∧ level = true)) :
    edgeOperation level ts s = trackLevel level s := by
  simp only [edgeOperation, ha, hf, hl, not_false_eq_true, if_true, Bool.true_eq_false, Bool.false_eq_true, if_false]

/-- An accepted edge does what the class of its delta says (R71). -/
theorem edgeOperation_accepted {s : State} (ts : Word) (ha : s.armed = true) (hf : s.frameComplete = false)
    (hl : s.lastLevel = false) :
    edgeOperation true ts s =
      match classify (delta s.lastTime ts) with
      | .start => seedFrame (recordEdge ts s)
      | .one => shiftIn true (recordEdge ts s)
      | .zero => shiftIn false (recordEdge ts s)
      | .none => recordEdge ts s := by
  simp only [edgeOperation, classify, ha, hf, hl, Bool.true_eq_false, Bool.false_eq_true, if_false, and_self,
    not_true_eq_false]
  split
  · rfl
  · split
    · rfl
    · split <;> rfl

theorem edgeOperation_repeat {s : State} (level : Bool) (ts : Word) (hl : s.lastLevel = level) (ha : s.armed = true)
    (hf : s.frameComplete = false) : edgeOperation level ts s = trackLevel level s := by
  refine edgeOperation_skip ts ha hf ?_
  rintro ⟨h0, h1⟩
  rw [hl, h1] at h0
  cases h0

/-- Everything an `EDGE` can do, with the condition under which it does it (R71). -/
theorem edgeOperation_cases (level : Bool) (ts : Word) (s : State) :
    (s.armed = false ∧ edgeOperation level ts s = s) ∨
    (s.armed = true ∧ s.frameComplete = true ∧ edgeOperation level ts s = s) ∨
    (s.armed = true ∧ s.frameComplete = false ∧ ¬(s.lastLevel = false ∧ level = true) ∧
      edgeOperation level ts s = trackLevel level s) ∨
    (s.armed = true ∧ s.frameComplete = false ∧ s.lastLevel = false ∧ level = true ∧
      ((classify (delta s.lastTime ts) = .start ∧ edgeOperation level ts s = seedFrame (recordEdge ts s)) ∨
       (∃ bit, classify (delta s.lastTime ts) = (if bit then .one else .zero) ∧
          edgeOperation level ts s = shiftIn bit (recordEdge ts s)) ∨
       (classify (delta s.lastTime ts) = .none ∧ edgeOperation level ts s = recordEdge ts s))) := by
  cases ha : s.armed
  · exact .inl ⟨rfl, edgeOperation_off level ts ha⟩
  · cases hf : s.frameComplete
    · by_cases hl : s.lastLevel = false ∧ level = true
      · refine .inr (.inr (.inr ⟨rfl, rfl, hl.1, hl.2, ?_⟩))
        obtain ⟨h0, rfl⟩ := hl
        have he := edgeOperation_accepted ts ha hf h0
        cases hc : classify (delta s.lastTime ts) <;> rw [hc] at he
        · exact .inl ⟨rfl, he⟩
        · exact .inr (.inl ⟨true, rfl, he⟩)
        · exact .inr (.inl ⟨false, rfl, he⟩)
        · exact .inr (.inr ⟨rfl, he⟩)
      · exact .inr (.inr (.inl ⟨rfl, rfl, hl, edgeOperation_skip ts ha hf hl⟩))
    · exact .inr (.inl ⟨rfl, rfl, edgeOperation_held level ts hf⟩)

/-- The `RESULT` a `READ` returns for a pending frame (R94, R95, R96). -/
theorem readOperation_cases (s : State) :
    (s.frameComplete = false ∧ readOperation s = returnResult 0 s) ∨
    (s.frameComplete = true ∧ isSentinel s.acc = true ∧ readOperation s = returnResult 0 (decoderReset s)) ∨
    (s.frameComplete = true ∧ isSentinel s.acc = false ∧ valid s.acc = true ∧
      readOperation s = returnResult s.acc (decoderReset s)) ∨
    (s.frameComplete = true ∧ isSentinel s.acc = false ∧ valid s.acc = false ∧
      readOperation s = returnResult 0 (decoderReset s)) := by
  cases hf : s.frameComplete
  · exact .inl ⟨rfl, by simp [readOperation, hf]⟩
  · cases hz : isSentinel s.acc
    · cases hv : valid s.acc
      · exact .inr (.inr (.inr ⟨rfl, rfl, rfl, by simp [readOperation, hf, hz, hv]⟩))
      · exact .inr (.inr (.inl ⟨rfl, rfl, rfl, by simp [readOperation, hf, hz, hv]⟩))
    · exact .inr (.inl ⟨rfl, rfl, by simp [readOperation, hf, hz]⟩)

theorem isSentinel_iff (w : Word) : isSentinel w = true ↔ w = 0 := by
  simp [isSentinel, Config.sentinel]

end Sys2Proof.Machine
end

