-- ==== Sys2Proof/Laws/Fetch.lean ====
section
/-! SUPPORT. The taking of an operation and the row a state selects for it, said once. -/

namespace Sys2Proof.Machine

theorem fetch_nil {s : State} (h : s.inputs = []) : fetch s = none := by
  simp [fetch, h]

theorem fetch_cons {s : State} {ev : EventWord} {rest : List EventWord} (h : s.inputs = ev :: rest) :
    fetch s = some (decodeAt s ev, { s with inputs := rest }) := by
  simp [fetch, h]

/-- The row selected does not depend on the operations still waiting. -/
theorem subcase_inputs (s : State) (l : List EventWord) (o : Operation) :
    subcase { s with inputs := l } o = subcase s o := by
  cases o <;> rfl

/-- After reset every operation is the first row of its operation in the opcode table (R123, R92). -/
theorem subcase_reset (o : Operation) : subcase State.reset o = firstRow o := by
  cases o <;> rfl

theorem accepts_iff (level : Bool) (s : State) :
    accepts level s = true ↔
      s.armed = true ∧ s.frameComplete = false ∧ s.lastLevel = false ∧ level = true := by
  simp [accepts, and_assoc]

theorem acceptsAs_iff (c : Symbol) (level : Bool) (ts : Word) (s : State) :
    acceptsAs c level ts s = true ↔
      (s.armed = true ∧ s.frameComplete = false ∧ s.lastLevel = false ∧ level = true) ∧
        classify (delta s.lastTime ts) = c := by
  simp [acceptsAs, accepts_iff]

theorem whenSkip_iff (level : Bool) (s : State) :
    whenSkip level s = true ↔
      s.armed = true ∧ s.frameComplete = false ∧ ¬(s.lastLevel = false ∧ level = true) := by
  cases hl : s.lastLevel <;> cases level <;> simp [whenSkip, hl]

theorem placeNext_eventWord (s : State) (nbits w : Nat) (h : w % 2 ^ nbits < 2 ^ 35) :
    placeNext s nbits w = { s with inputs := BitVec.ofNat 35 (w % 2 ^ nbits) :: s.inputs } := by
  rw [placeNext, eventWordOf, if_pos h]

end Sys2Proof.Machine
end

