-- ==== Sys2Proof/Laws/PerInstr.lean ====
section
/-! SUPPORT. A statement about every instruction as syntax, one lemma per constructor: the word of a row denotes the row's
operation (R41, R42). -/

namespace Sys2Proof.Laws.EncodedRowDenotesItsOperation

/-- The event word written for a row decodes to the row's operation. -/
def Statement (i : Instr) : Prop := decodeOperation (encode i) = operationOf i

theorem edgeOff (level : Bool) (ts : Word) : Statement (.edgeOff level ts) := decodeOperation_encodeOperation _
theorem edgeHeld (level : Bool) (ts : Word) : Statement (.edgeHeld level ts) := decodeOperation_encodeOperation _
theorem edgeSkip (level : Bool) (ts : Word) : Statement (.edgeSkip level ts) := decodeOperation_encodeOperation _
theorem edgeStart (level : Bool) (ts : Word) : Statement (.edgeStart level ts) := decodeOperation_encodeOperation _
theorem edgeOne (level : Bool) (ts : Word) : Statement (.edgeOne level ts) := decodeOperation_encodeOperation _
theorem edgeZero (level : Bool) (ts : Word) : Statement (.edgeZero level ts) := decodeOperation_encodeOperation _
theorem edgeNoise (level : Bool) (ts : Word) : Statement (.edgeNoise level ts) := decodeOperation_encodeOperation _
theorem edgeDesync (level : Bool) (ts : Word) : Statement (.edgeDesync level ts) := decodeOperation_encodeOperation _
theorem readEmpty : Statement .readEmpty := decodeOperation_encodeOperation _
theorem readZero : Statement .readZero := decodeOperation_encodeOperation _
theorem readOk : Statement .readOk := decodeOperation_encodeOperation _
theorem readBad : Statement .readBad := decodeOperation_encodeOperation _
theorem enable : Statement .enable := decodeOperation_encodeOperation _
theorem disable : Statement .disable := decodeOperation_encodeOperation _

end Sys2Proof.Laws.EncodedRowDenotesItsOperation
end

