-- ==== Sys2Proof/Laws/Step.lean ====
section
/-! SUPPORT. What one step and a run of steps are, said once; and the decoder's answer for a table word. -/

namespace Sys2Proof.Machine

theorem step_nil {s : State} (h : s.inputs = []) : step s = .next s := by
  rw [step, fetch_nil h]; rfl

theorem step_cons {s : State} {ev : EventWord} {rest : List EventWord} (h : s.inputs = ev :: rest) :
    step s = exec (decodeAt s ev) { s with inputs := rest } := by
  rw [step, fetch_cons h]

theorem coreRun_next (M : Host.Core) (n : Nat) (s t : M.State) (h : M.step s = .next t) :
    M.run (n + 1) s = M.run n t := by
  rw [Host.Core.run, h]

theorem coreRun_refused (M : Host.Core) (n : Nat) (s : M.State) (r : M.Refusal) (h : M.step s = .refused r) :
    M.run (n + 1) s = .refused r := by
  rw [Host.Core.run, h]

theorem runSteps_zero (s : State) : runSteps 0 s = .next s := rfl

theorem runSteps_succ {n : Nat} {s t : State} (h : step s = .next t) : runSteps (n + 1) s = runSteps n t :=
  coreRun_next core n s t h

/-- Steps in a row: a run of `m` steps to `t` and a run of `n` from there. -/
theorem runSteps_add {m n : Nat} {s t : State} (h : runSteps m s = .next t) :
    runSteps (m + n) s = runSteps n t := by
  induction m generalizing s with
  | zero =>
    cases h
    rw [Nat.zero_add]
  | succ m ih =>
    rw [Nat.add_right_comm]
    cases hs : step s with
    | next u =>
      rw [runSteps_succ hs] at h ⊢
      exact ih h
    | fault r => cases r
    | refused r =>
      have hr : runSteps (m + 1) s = .refused r := coreRun_refused core m s r hs
      rw [hr] at h
      cases h

/-- The word placed by `withFetchWord` is the operation the next step takes. -/
theorem step_withFetchWord (s : State) (nbits w : Nat) (h : w % 2 ^ nbits < 2 ^ 35) :
    step (s.withFetchWord nbits w) = exec (decodeAt s (BitVec.ofNat 35 (w % 2 ^ nbits))) s := by
  rw [State.withFetchWord, placeNext_eventWord s nbits w h, step_cons rfl]
  exact congrArg (fun i => exec i s) (subcase_inputs s _ _)

/-- A table word of at most 35 bits decodes to its operation's first row. -/
theorem decodeTableWord_eq (nbits w : Nat) (h : w % 2 ^ nbits < 2 ^ 35) :
    decodeTableWord nbits w = some (decode (BitVec.ofNat 35 (w % 2 ^ nbits))) := by
  rw [decodeTableWord, decodeNumber, eventWordOf_lt _ h]

end Sys2Proof.Machine
end

