-- ==== Sys2Proof/Tests/Slice0.lean ====
section
/-! SUPPORT. The model's own tests. Expected values come from spec/95_test_vectors.md (the vector's name stands above each test)
or are written out from the rule named there; none is copied from the model. Then one witness for every statement that has
hypotheses: a concrete state and operands that meet them all. -/

namespace Sys2Proof.Tests

open Sys2Proof Sys2Proof.Machine

/-- A state in the notation of spec/95_test_vectors.md: `A`, `LL`, `LT`, `BC`, `ACC`, `FC`. -/
def st (a ll : Bool) (lt : Word) (bc : Count) (acc : Word) (fc : Bool) : State :=
  { armed := a, lastLevel := ll, lastTime := lt, bitCount := bc, acc := acc, frameComplete := fc, inputs := [], results := [] }

/-- `s` with these operations waiting. -/
def waiting (evs : List EventWord) (s : State) : State := { s with inputs := evs }

/-- `s` after these `RESULT`s. -/
def returned (rs : List Word) (s : State) : State := { s with results := rs }

/-- The state after the one operation `ev`. -/
def after (ev : EventWord) (s : State) : Option State := nextState (step (waiting [ev] s))

/-- Power-on. -/
def off : State := st false false 0 0 0 false

/-- Armed and idle. -/
def ready : State := st true false 0 0 0 false

/-- The pending frame of V-EDGE-3 and V-READ-3. -/
def pendingS7 : State := st true true 1060640 33 0x0580A952 true

/-! ### WellFormed smoke: each check refuses an ill-formed term (R64 to R68: `level = 1`) -/

theorem test_wf_refuses_start_falling : (Instr.edgeStart false 0).wf = false := by decide
theorem test_wf_refuses_one_falling : (Instr.edgeOne false 0).wf = false := by decide
theorem test_wf_refuses_zero_falling : (Instr.edgeZero false 0).wf = false := by decide
theorem test_wf_refuses_noise_falling : (Instr.edgeNoise false 0).wf = false := by decide
theorem test_wf_refuses_desync_falling : (Instr.edgeDesync false 0).wf = false := by decide
theorem test_wf_allows_skip_both_levels : (Instr.edgeSkip false 0).wf = true ∧ (Instr.edgeSkip true 0).wf = true := by decide

/-! ### Decoding: the word of every row, written out from R41 -/

/-- `op` 00, `level` 1, `ts` 0x00001388, bit by bit (V-EDGE-1). -/
theorem test_decode_edgeOff :
    decodeAt off 0b00100000000000000000001001110001000 = .edgeOff true 5000 := by decide
/-- V-EDGE-4. -/
theorem test_decode_edgeHeld : decodeAt pendingS7 0x1001063DC = .edgeHeld true 1074140 := by decide
/-- V-EDGE-5. -/
theorem test_decode_edgeSkip :
    decodeAt (st true true 1013500 1 0 false) 0x0000F792C = .edgeSkip false 1014060 := by decide
/-- V-EDGE-8. -/
theorem test_decode_edgeStart :
    decodeAt (st true false 1000000 0 0 false) 0x1000F76FC = .edgeStart true 1013500 := by decide
/-- V-EDGE-11. -/
theorem test_decode_edgeOne :
    decodeAt (st true false 1014620 2 0 false) 0x1000F8426 = .edgeOne true 1016870 := by decide
/-- V-EDGE-12. -/
theorem test_decode_edgeZero :
    decodeAt (st true false 1016870 3 0x80000000 false) 0x1000F8886 = .edgeZero true 1017990 := by decide
/-- V-EDGE-13. -/
theorem test_decode_edgeNoise :
    decodeAt (st true false 1000000 0 0 false) 0x1000F4880 = .edgeNoise true 1001600 := by decide
/-- V-EDGE-15. -/
theorem test_decode_edgeDesync :
    decodeAt (st true false 1017990 4 0x40000000 false) 0x1000F8EC6 = .edgeDesync true 1019590 := by decide
/-- V-READ-2: `op` 01, the ignored bits written 0. -/
theorem test_decode_readEmpty : decodeAt (st true false 1024730 8 0xA4000000 false)
    0b01000000000000000000000000000000000 = .readEmpty := by decide
/-- V-READ-5. -/
theorem test_decode_readZero : decodeAt (st true true 1049340 33 0 true) 0x200000000 = .readZero := by decide
/-- V-READ-3. -/
theorem test_decode_readOk : decodeAt pendingS7 0x200000000 = .readOk := by decide
/-- V-READ-4; the ignored bits of the word are written 1 here (R41: ignored on decode). -/
theorem test_decode_readBad : decodeAt (st true true 1060640 33 0x0580A953 true) 0x3FFFFFFFF = .readBad := by decide
/-- V-CTL-1: `op` 10. -/
theorem test_decode_enable : decodeAt off 0b10000000000000000000000000000000000 = .enable := by decide
/-- V-CTL-4: `op` 11. -/
theorem test_decode_disable : decodeAt ready 0b11000000000000000000000000000000000 = .disable := by decide
/-- A number with a bit above `EV[34]` is no event word (log 7). -/
theorem test_decode_refuses_wide_number : decodeNumber 0x800000000 = .error (.notAnEventWord 0x800000000) := by rfl
/-- The canonical words of R41's examples. -/
theorem test_encode_words : encode (.edgeStart true 1000000) = 0x1000F4240 ∧ encode (.edgeSkip false 1009000) = 0x0000F6568 ∧
    encode .readBad = 0x200000000 ∧ encode .enable = 0x400000000 ∧ encode .disable = 0x600000000 := by decide

/-! ### One step of each row -/

/-- V-EDGE-2. -/
theorem test_edgeOff : after 0x0FFFFFFFF off = some off := by decide
/-- V-EDGE-3. -/
theorem test_edgeHeld : after 0x000103150 pendingS7 = some pendingS7 := by decide
/-- V-EDGE-5. -/
theorem test_edgeSkip_falling :
    after 0x0000F792C (st true true 1013500 1 0 false) = some (st true false 1013500 1 0 false) := by decide
/-- V-EDGE-7. -/
theorem test_edgeSkip_repeated :
    after 0x1000F7B5C (st true true 1013500 1 0 false) = some (st true true 1013500 1 0 false) := by decide
/-- V-EDGE-9. -/
theorem test_edgeStart_midframe :
    after 0x1000F76FC (st true false 1000000 7 0xA4000000 false) = some (st true true 1013500 1 0 false) := by decide
/-- V-EDGE-30: the highest start delta. -/
theorem test_edgeStart_limit :
    after 0x1000045D3 (st true false 1000 3 0x80000000 false) = some (st true true 17875 1 0 false) := by decide
/-- V-EDGE-18: the bit that completes. -/
theorem test_edgeOne_completes :
    after 0x10010338A (st true false 1059520 32 0x0B0152A4 false) = some (st true true 1061770 33 0x8580A952 true) := by
  decide
/-- V-EDGE-19: at count 0. -/
theorem test_edgeOne_unseeded :
    after 0x100001C52 (st true false 5000 0 0 false) = some (st true true 7250 1 0x80000000 false) := by decide
/-- V-EDGE-17. -/
theorem test_edgeZero_completes :
    after 0x100102F20 (st true false 1059520 32 0x0B0152A4 false) = some (st true true 1060640 33 0x0580A952 true) := by
  decide
/-- V-EDGE-20: the timestamp wraps. -/
theorem test_edgeZero_wraps :
    after 0x1000002C0 (st true false 4294967000 5 0x28000000 false) = some (st true true 704 6 0x14000000 false) := by
  decide
/-- V-EDGE-13. -/
theorem test_edgeNoise :
    after 0x1000F4880 (st true false 1000000 0 0 false) = some (st true true 1001600 0 0 false) := by decide
/-- V-EDGE-16: at count 32. -/
theorem test_edgeDesync_late :
    after 0x1001ECAC6 (st true false 1017990 32 0x0B0152A4 false) = some (st true true 2017990 32 0x0B0152A4 false) := by
  decide
/-- V-EDGE-25: a timestamp one lower. -/
theorem test_edgeDesync_backwards :
    after 0x1000007CF (st true false 2000 9 1 false) = some (st true true 1999 9 1 false) := by decide
/-- V-READ-12: one bit short. -/
theorem test_readEmpty : after 0x200000000 (st true true 999 32 0x0B0152A4 false) =
    some (returned [0] (st true true 999 32 0x0B0152A4 false)) := by decide
/-- V-READ-5. -/
theorem test_readZero : after 0x200000000 (st true true 1049340 33 0 true) = some (returned [0] ready) := by decide
/-- V-READ-3. -/
theorem test_readOk : after 0x200000000 pendingS7 = some (returned [0x0580A952] ready) := by decide
/-- V-READ-8: the unused bits are delivered as received. -/
theorem test_readOk_unused :
    after 0x200000000 (st true true 1063000 33 0xC580A952 true) = some (returned [0xC580A952] ready) := by decide
/-- V-READ-10. -/
theorem test_readBad : after 0x200000000 (st true true 1060640 33 0x0740A952 true) = some (returned [0] ready) := by decide
/-- V-CTL-3. -/
theorem test_enable_discards : after 0x400000000 pendingS7 = some ready := by decide
/-- V-CTL-5. -/
theorem test_disable_discards : after 0x600000000 (st true true 1024730 8 0xA4000000 false) = some off := by decide

/-! ### Classes, checksums, fields -/

/-- V-CLS-3 to V-CLS-19, the limits. -/
theorem test_classify_limits :
    [895, 896, 1400, 1401, 1799, 1800, 2812, 2813, 10799, 10800, 16875, 16876].map classify =
      [.none, .zero, .zero, .none, .none, .one, .one, .none, .none, .start, .start, .none] := by decide
/-- V-CRC-1, V-CRC-6a to V-CRC-6d. -/
theorem test_crc8 : [0x80A952, 0x401CE5, 0x8FA258, 0x000001, 0x800000].map crc8 = [0x16, 0x99, 0xF2, 0x07, 0x0B] := by decide
/-- V-CRC-8. -/
theorem test_valid : [0x0580A952, 0x0740A952, 0x05C0A952, 0xC580A952, 0x0500A951, 0xFFFFFFFF].map valid =
    [true, false, false, true, true, false] := by decide
/-- V-CRC-10. -/
theorem test_seal : [0x00A952, 0x000001, 0x3FFFFF, 0x200000, 0x00A953].map (fun p => sealFrame p 0) =
    [0x0580A952, 0x20400001, 0x203FFFFF, 0x31600000, 0x25C0A953] := by decide
/-- S7: the fields of the scenario. -/
theorem test_packet : packetOf 0x0580A952 =
    { channel := 0, team := 1, action := 1, actionParam := 5, playerId := 42, crc := 0x16, unused := 0 } := by decide
/-- P1, rows 2 to 7 and its last edge: what `FRAME 0x0580A952 @1000000` is. -/
theorem test_frame_words : (frameEvents 0x0580A952 1000000).take 6 =
      [0x1000F4240, 0x0000F6568, 0x1000F76FC, 0x0000F792C, 0x1000F7B5C, 0x0000F7D8C] ∧
    (frameEvents 0x0580A952 1000000).length = 68 ∧ (frameEvents 0x0580A952 1000000)[67]? = some 0x000103150 := by decide

/-! ### Witnesses: the hypotheses of each statement, met together -/

/-- A one inside a frame, its period at the lowest and highest value of the band. -/
def inFrame : State := st true false 1000 3 0x80000000 false

/-- Row `EDGE.DESYNC` and row `READ.OK`. -/
theorem witness_DecodeOfEncodeIsTheSelectedRow :
    ((Instr.edgeDesync true 1999).wf = true ∧ selects (.edgeDesync true 1999) (st true false 2000 9 1 false) = true) ∧
    (Instr.readOk.wf = true ∧ selects .readOk pendingS7 = true) := by decide

theorem witness_ExactlyOneRowIsSelected :
    operationOf (.edgeZero true 1896) = .edge true 1896 ∧ selects (.edgeZero true 1896) inFrame = true := by decide

theorem witness_SameEventWordSameEffect :
    encode (.edgeStart true 5) = encode (.edgeHeld true 5) ∧ Instr.edgeStart true 5 ≠ .edgeHeld true 5 ∧
    encode .readOk = encode .readBad := by decide

theorem witness_StepRunsTheDecodedRow :
    (waiting [0x1000F76FC, 0x200000000] inFrame).inputs = 0x1000F76FC :: [0x200000000] := rfl

theorem witness_StepWithNothingWaitingChangesNothing : pendingS7.inputs = [] := rfl

theorem witness_PlacedTableWordRunsAsDecoded :
    decodeTableWord 40 0x1000F4240 = some (.edgeOff true 1000000) ∧ decodeTableWord 35 0x7FFFFFFFF = some .disable := by
  decide

theorem witness_EdgeOffChangesNothing : off.armed = false := rfl

theorem witness_EdgeHeldChangesNothing : pendingS7.armed = true ∧ pendingS7.frameComplete = true := ⟨rfl, rfl⟩

/-- The three pairs of levels that are skipped: (1, 0), (0, 0), (1, 1). -/
theorem witness_EdgeSkipTracksTheLevelOnly :
    (inFrame.armed = true ∧ inFrame.frameComplete = false ∧ (inFrame.lastLevel = true ∨ (false : Bool) = false)) ∧
    ((st true true 5 1 0 false).armed = true ∧ (st true true 5 1 0 false).frameComplete = false ∧
      ((st true true 5 1 0 false).lastLevel = true ∨ (true : Bool) = false)) := by decide

/-- Deltas 10800 and 16875. -/
theorem witness_EdgeStartSeedsTheFrame :
    inFrame.armed = true ∧ inFrame.frameComplete = false ∧ inFrame.lastLevel = false ∧
    (10800 ≤ (11800 - inFrame.lastTime).toNat ∧ (11800 - inFrame.lastTime).toNat ≤ 16875) ∧
    (10800 ≤ (17875 - inFrame.lastTime).toNat ∧ (17875 - inFrame.lastTime).toNat ≤ 16875) := by decide

/-- Deltas 1800 and 2812. -/
theorem witness_EdgeOneShiftsInAOne :
    inFrame.armed = true ∧ inFrame.frameComplete = false ∧ inFrame.lastLevel = false ∧
    (1800 ≤ (2800 - inFrame.lastTime).toNat ∧ (2800 - inFrame.lastTime).toNat ≤ 2812) ∧
    (1800 ≤ (3812 - inFrame.lastTime).toNat ∧ (3812 - inFrame.lastTime).toNat ≤ 2812) := by decide

/-- Deltas 896 and 1400. -/
theorem witness_EdgeZeroShiftsInAZero :
    inFrame.armed = true ∧ inFrame.frameComplete = false ∧ inFrame.lastLevel = false ∧
    (896 ≤ (1896 - inFrame.lastTime).toNat ∧ (1896 - inFrame.lastTime).toNat ≤ 1400) ∧
    (896 ≤ (2400 - inFrame.lastTime).toNat ∧ (2400 - inFrame.lastTime).toNat ≤ 1400) := by decide

/-- Delta 1600 (S6). -/
theorem witness_EdgeNoiseRecordsTheEdgeOnly :
    ready.armed = true ∧ ready.frameComplete = false ∧ ready.lastLevel = false ∧
    classify (1600 - ready.lastTime) = .none ∧ ready.bitCount = 0 := by decide

/-- Deltas 895 and 16876. -/
theorem witness_EdgeDesyncRecordsTheEdgeOnly :
    inFrame.armed = true ∧ inFrame.frameComplete = false ∧ inFrame.lastLevel = false ∧
    classify (1895 - inFrame.lastTime) = .none ∧ classify (17876 - inFrame.lastTime) = .none ∧ inFrame.bitCount ≠ 0 := by
  decide

theorem witness_AcceptedEdgeRecordsTimeAndLevel :
    operationOf (.edgeOne true 2800) = .edge true 2800 ∧ inFrame.armed = true ∧ inFrame.frameComplete = false ∧
    inFrame.lastLevel = false := by decide

theorem witness_EveryEdgeRowIsTheWholeListing :
    operationOf (.edgeHeld false 7) = .edge false 7 ∧ operationOf (.edgeStart true 7) = .edge true 7 := by decide

/-- V-EDGE-17, which sets the flag, and V-EDGE-16, which does not. -/
theorem witness_FlagIsSetExactlyAtTheThirtyThirdCount :
    (exec (.edgeZero true 1060640) (st true false 1059520 32 0x0B0152A4 false) =
        .next (st true true 1060640 33 0x0580A952 true) ∧
      exec (.edgeDesync true 2017990) (st true false 1017990 32 0x0B0152A4 false) =
        .next (st true true 2017990 32 0x0B0152A4 false)) ∧
    (st true false 1059520 32 0x0B0152A4 false).frameComplete = false := ⟨⟨rfl, rfl⟩, rfl⟩

/-- Each of the three alternatives. -/
theorem witness_OutOfBandAndFilteredEdgesDisturbNothing :
    operationOf (.edgeDesync true 1895) = .edge true 1895 ∧ classify (1895 - inFrame.lastTime) = .none ∧
    operationOf (.edgeSkip true 2000) = .edge true 2000 ∧ (st true true 1000 1 0 false).lastLevel = true ∧
    operationOf (.edgeSkip false 2000) = .edge false 2000 := by decide

theorem witness_ReadEmptyReturnsNothing : inFrame.frameComplete = false := rfl

theorem witness_ReadZeroDropsTheSentinel :
    (st true true 1049340 33 0 true).frameComplete = true ∧ (st true true 1049340 33 0 true).acc = 0 := ⟨rfl, rfl⟩

theorem witness_ReadOkDeliversTheFrame :
    pendingS7.frameComplete = true ∧ pendingS7.acc ≠ 0 ∧ valid pendingS7.acc = true := by decide

theorem witness_ReadBadDropsTheFrame :
    (st true true 1060640 33 0x0580A953 true).frameComplete = true ∧ (st true true 1060640 33 0x0580A953 true).acc ≠ 0 ∧
    valid (st true true 1060640 33 0x0580A953 true).acc = false := by decide

theorem witness_ConsumingReadFreesTheSlot : operationOf .readBad = .read ∧ pendingS7.frameComplete = true := by decide

theorem witness_OnlyCompleteValidFramesAreDelivered :
    exec .readOk pendingS7 = .next (returned [0x0580A952] ready) ∧
    (returned [0x0580A952] ready).results = pendingS7.results ++ [0x0580A952] ∧ (0x0580A952 : Word) ≠ 0 :=
  ⟨rfl, rfl, by decide⟩

theorem witness_OnlyReadMovesAFrameOut :
    operationOf .enable ≠ .read ∧ operationOf .disable ≠ .read ∧ operationOf (.edgeHeld true 5) ≠ .read := by decide

/-- A control row, a poll that returns, and an edge on a pending frame. -/
theorem witness_EachElementHasItsWriters :
    (exec .enable pendingS7 = .next ready ∧ exec .readOk pendingS7 = .next (returned [0x0580A952] ready) ∧
      exec (.edgeHeld true 5) pendingS7 = .next pendingS7) ∧
    (operationOf .disable ≠ .enable ∧ operationOf .enable ≠ .disable ∧ operationOf .enable ≠ .read ∧
      operationOf (.edgeHeld true 5) = .edge true 5 ∧ pendingS7.frameComplete = true) :=
  ⟨⟨rfl, rfl, rfl⟩, by decide⟩

/-- The completing edge of V-EDGE-17. -/
theorem witness_StepKeepsTheFiveInvariants :
    Inv (waiting [0x100102F20] (st true false 1059520 32 0x0B0152A4 false)) ∧
    step (waiting [0x100102F20] (st true false 1059520 32 0x0B0152A4 false)) =
      .next (st true true 1060640 33 0x0580A952 true) := ⟨by decide, rfl⟩

/-- The phases `RUN(32)` and `PENDING`. -/
theorem witness_PhasesMoveAsTheTableSays :
    (Inv (st true false 1059520 32 0x0B0152A4 false) ∧
      selects (.edgeZero true 1060640) (st true false 1059520 32 0x0B0152A4 false) = true ∧
      phase (st true false 1059520 32 0x0B0152A4 false) = some (.run 32)) ∧
    (Inv pendingS7 ∧ selects .readOk pendingS7 = true ∧ phase pendingS7 = some .pending) := by decide

theorem witness_DisabledBlockDoesNothingUntilEnable :
    off.armed = false ∧ DecoderClear off ∧ (∀ ev ∈ [0x1000F76FC, 0x200000000, 0x600000000], ¬IsEnable ev) ∧
    (waiting [0x1000F76FC, 0x200000000, 0x600000000, 0x400000000] off).inputs =
      [0x1000F76FC, 0x200000000, 0x600000000] ++ [0x400000000] := ⟨rfl, by decide, by
    simp only [List.forall_mem_cons, List.not_mem_nil]; exact ⟨by decide, by decide, by decide, nofun⟩, rfl⟩

theorem witness_CrcBitsAreParityTrees :
    ([0xAD41D1, 0xF7DA63, 0x42B547, 0x856A8E, 0x0AD51C, 0x15AA38, 0x2B5470, 0x56A8E0] : List CrcInput)[0]? =
      some 0xAD41D1 ∧
    ([0xAD41D1, 0xF7DA63, 0x42B547, 0x856A8E, 0x0AD51C, 0x15AA38, 0x2B5470, 0x56A8E0] : List CrcInput)[7]? =
      some 0x56A8E0 := by decide

theorem witness_SentinelIsValidButNeverDelivered :
    operationOf .readOk = .read ∧ (st true true 1049340 33 0 true).frameComplete = true ∧
    (st true true 1049340 33 0 true).acc = 0 := by decide

/-- Bits 0 and 29 of the frame of S7. -/
theorem witness_SingleAndDoubleBitErrorsAreDetected :
    valid 0x0580A952 = true ∧ 0 < 30 ∧ 29 < 30 ∧ 0 ≠ 29 := by decide

/-- The lowest and the highest triple. -/
theorem witness_ExactlyTwentyThreeTripleErrorsEscape :
    valid 0x0580A952 = true ∧ (0 < 1 ∧ 1 < 2 ∧ 2 < 30) ∧ (27 < 28 ∧ 28 < 29 ∧ 29 < 30) := by decide

theorem witness_PendingFrameSurvivesAnyEdges :
    pendingS7.frameComplete = true ∧ (∀ ev ∈ [0x000103150, 0x1001063DC], IsEdge ev) ∧
    (waiting [0x000103150, 0x1001063DC, 0x200000000] pendingS7).inputs = [0x000103150, 0x1001063DC] ++ [0x200000000] :=
  ⟨rfl, by simp only [List.forall_mem_cons, List.not_mem_nil]; exact ⟨by decide, by decide, nofun⟩, rfl⟩

theorem witness_PollsDoNotDisturbAPartialFrame :
    inFrame.frameComplete = false ∧ (∀ ev ∈ [0x200000000, 0x3FFFFFFFF], evOp ev = 1) ∧
    (waiting [0x200000000, 0x3FFFFFFFF] inFrame).inputs = [0x200000000, 0x3FFFFFFFF] ++ [] := ⟨rfl, by simp only [List.forall_mem_cons, List.not_mem_nil]; exact ⟨by decide, by decide, nofun⟩, rfl⟩

theorem witness_SecondReadReturnsNothing :
    evOp 0x200000000 = 1 ∧ evOp 0x3FFFFFFFF = 1 ∧ pendingS7.frameComplete = true ∧
    (waiting [0x200000000, 0x3FFFFFFFF] pendingS7).inputs = 0x200000000 :: 0x3FFFFFFFF :: [] := by decide

/-- A completing zero (V-EDGE-17) and a completing one (V-EDGE-18). -/
theorem witness_CompletingEdgeAndReadCommuteUpToWhichPollAnswers :
    evOp 0x200000000 = 1 ∧ (st true false 1059520 32 0x0B0152A4 false).armed = true ∧
    (st true false 1059520 32 0x0B0152A4 false).frameComplete = false ∧
    (st true false 1059520 32 0x0B0152A4 false).lastLevel = false ∧
    (st true false 1059520 32 0x0B0152A4 false).bitCount = 32 ∧
    classify (1060640 - (st true false 1059520 32 0x0B0152A4 false).lastTime) =
      (if (false : Bool) = true then .one else .zero) ∧
    classify (1061770 - (st true false 1059520 32 0x0B0152A4 false).lastTime) =
      (if (true : Bool) = true then .one else .zero) := by decide

/-- Thirty-two cells at the four limits of the two bands. -/
def limitCells : List Cell :=
  List.replicate 8 { fallTime := 5, period := 896 } ++ List.replicate 8 { fallTime := 6, period := 1400 } ++
    List.replicate 8 { fallTime := 7, period := 1800 } ++ List.replicate 8 { fallTime := 8, period := 2812 }

/-- Thirty-two cells, and none. -/
theorem witness_CellsAssembleFirstBitLowest :
    ((st true true 1013500 1 0 false).armed = true ∧ (st true true 1013500 1 0 false).frameComplete = false ∧
      (st true true 1013500 1 0 false).lastLevel = true ∧ (st true true 1013500 1 0 false).bitCount = 1 ∧
      (st true true 1013500 1 0 false).acc = 0) ∧
    (limitCells.map cellBit = (List.replicate 16 false ++ List.replicate 16 true).map some ∧
      (List.replicate 16 false ++ List.replicate 16 true).length ≤ 32 ∧
      (waiting (cellEdges 1013500 limitCells) (st true true 1013500 1 0 false)).inputs =
        cellEdges (st true true 1013500 1 0 false).lastTime limitCells ++ []) ∧
    (([] : List Cell).map cellBit = ([] : List Bool).map some ∧ ([] : List Bool).length ≤ 32) := by
  refine ⟨by decide, ⟨by decide, by decide, ?_⟩, by decide⟩
  rw [List.append_nil]; rfl

/-- A thirty-third cell. -/
def lastCell : Cell := { fallTime := 9, period := 2250 }

/-- Thirty-three cells. -/
theorem witness_UnseededCellsCompleteAtThirtyThree :
    ((st true true 1000 0 0 false).armed = true ∧ (st true true 1000 0 0 false).frameComplete = false ∧
      (st true true 1000 0 0 false).lastLevel = true ∧ (st true true 1000 0 0 false).bitCount = 0 ∧
      (st true true 1000 0 0 false).acc = 0) ∧
    ((limitCells ++ [lastCell]).map cellBit =
        (List.replicate 16 false ++ List.replicate 17 true).map some ∧
      (List.replicate 16 false ++ List.replicate 17 true).length ≤ 33 ∧
      (waiting (cellEdges 1000 (limitCells ++ [lastCell])) (st true true 1000 0 0 false)).inputs =
        cellEdges (st true true 1000 0 0 false).lastTime (limitCells ++ [lastCell]) ++ []) := by
  refine ⟨by decide, by decide, by decide, ?_⟩
  rw [List.append_nil]; rfl

/-- A valid frame sent to an idle block, and one sent behind 31 counted bits. -/
theorem witness_TransmittedFrameIsReceivedAndDelivered :
    evOp 0x200000000 = 1 ∧
    (ready.armed = true ∧ ready.frameComplete = false ∧ ready.lastLevel = false ∧ ready.bitCount ≠ 32 ∧
      (waiting (frameEvents 0x0580A952 1000000 ++ [0x200000000]) ready).inputs =
        frameEvents 0x0580A952 1000000 ++ 0x200000000 :: []) ∧
    ((st true false 7 31 0x02 false).armed = true ∧ (st true false 7 31 0x02 false).frameComplete = false ∧
      (st true false 7 31 0x02 false).lastLevel = false ∧ (st true false 7 31 0x02 false).bitCount ≠ 32) :=
  ⟨by decide, ⟨rfl, rfl, rfl, by decide, rfl⟩, by decide⟩

end Sys2Proof.Tests
end

section
/-! Proofs about the delta of two timestamps (spec/00_scope.md R7; spec/40_edge_decoder.md R63). -/

namespace Sys2Proof.Machine

/-- One word solves `b + d = a`, and it is the delta: word addition modulo 2^32 cancels (R7). -/
theorem add_eq_iff_eq_delta (a b d : Word) : b + d = a ↔ d = delta b a := by
  rw [delta, add_comm, eq_sub_iff_add_eq]

/-- The delta as an integer: the `2 ^ 32` keeps the difference from going below 0 when the time base has wrapped (R7). -/
theorem delta_toNat (a b : Word) : (delta b a).toNat = (a.toNat + 2 ^ 32 - b.toNat) % 2 ^ 32 := by
  have hb : b.toNat < 2 ^ 32 := b.isLt
  have hswap : 2 ^ 32 - b.toNat + a.toNat = a.toNat + 2 ^ 32 - b.toNat := by omega
  rw [delta, BitVec.toNat_sub, hswap]

/-- Settles O39: the modular equation has the delta as its one solution, and `delta_toNat` gives its value. -/
theorem deltaIsModularDifference : Obligations.DeltaIsModularDifference :=
  fun a b d => ⟨add_eq_iff_eq_delta a b d, delta_toNat a b⟩

end Sys2Proof.Machine
end

section
/-! The whole operation behind every row (spec/30_encoding.md R40, R42): a row's meaning is the operation of its event word, in
every state (log 6 where the state selects another row). So `exec` has one equation, and one case per operation is enough for
what holds of every row. -/

namespace Sys2Proof.Machine

/-- What an operation leaves in a state: the listing of R71 for `EDGE`, of R92 to R96 for `READ`, and R90, R91. -/
def runOperation (o : Operation) (s : State) : State :=
  match o with
  | .edge level ts => edgeOperation level ts s
  | .read => readOperation s
  | .enable => setArmed true (decoderReset s)
  | .disable => setArmed false (decoderReset s)

/-- What an accepted edge does for the class of its delta (R63 to R68). -/
def acceptedEdge (c : Symbol) (ts : Word) (s : State) : State :=
  match c with
  | .start => seedFrame (recordEdge ts s)
  | .one => shiftIn true (recordEdge ts s)
  | .zero => shiftIn false (recordEdge ts s)
  | .none => recordEdge ts s

/-- The shape all guarded meanings share: under its condition a row does what the whole operation does there. -/
theorem next_guarded_eq {c : Bool} {a b : State} (h : c = true → b = a) :
    (.next (if c then a else b) : Host.Outcome State Fault Refusal) = .next b := by
  rw [ite_eq_right_iff.mpr fun hc => (h hc).symm]

theorem edgeOperation_of_whenOff {s : State} (level : Bool) (ts : Word) (h : whenOff s = true) :
    edgeOperation level ts s = s :=
  edgeOperation_off level ts (by simpa [whenOff] using h)

theorem edgeOperation_of_whenHeld {s : State} (level : Bool) (ts : Word) (h : whenHeld s = true) :
    edgeOperation level ts s = s :=
  edgeOperation_held level ts (Bool.and_eq_true_iff.mp h).2

theorem edgeOperation_of_whenSkip {s : State} {level : Bool} (ts : Word) (h : whenSkip level s = true) :
    edgeOperation level ts s = trackLevel level s := by
  obtain ⟨harmed, hflag, hrise⟩ := (whenSkip_iff level s).mp h
  exact edgeOperation_skip ts harmed hflag hrise

theorem edgeOperation_of_acceptsAs {s : State} {c : Symbol} {level : Bool} {ts : Word}
    (h : acceptsAs c level ts s = true) :
    edgeOperation level ts s = acceptedEdge c ts s := by
  obtain ⟨⟨harmed, hflag, hlevel, rfl⟩, rfl⟩ := (acceptsAs_iff c level ts s).mp h
  exact edgeOperation_accepted ts harmed hflag hlevel

theorem readOperation_of_whenEmpty {s : State} (h : whenEmpty s = true) : readOperation s = returnResult 0 s := by
  simp_all [whenEmpty, readOperation]

theorem readOperation_of_whenZero {s : State} (h : whenZero s = true) :
    readOperation s = returnResult 0 (decoderReset s) := by
  simp_all [whenZero, readOperation]

theorem readOperation_of_whenOk {s : State} (h : whenOk s = true) :
    readOperation s = returnResult s.acc (decoderReset s) := by
  simp_all [whenOk, readOperation]

theorem readOperation_of_whenBad {s : State} (h : whenBad s = true) :
    readOperation s = returnResult 0 (decoderReset s) := by
  simp_all [whenBad, readOperation]

/-- Every row is its whole operation, in every state, and has a next state (R40, R42, R100). -/
theorem exec_eq_runOperation (i : Instr) (s : State) : exec i s = .next (runOperation (operationOf i) s) := by
  cases i with
  | edgeOff level ts => exact next_guarded_eq fun h => edgeOperation_of_whenOff level ts h
  | edgeHeld level ts => exact next_guarded_eq fun h => edgeOperation_of_whenHeld level ts h
  | edgeSkip level ts => exact next_guarded_eq fun h => edgeOperation_of_whenSkip ts h
  | edgeStart level ts => exact next_guarded_eq fun h => edgeOperation_of_acceptsAs h
  | edgeOne level ts => exact next_guarded_eq fun h => edgeOperation_of_acceptsAs h
  | edgeZero level ts => exact next_guarded_eq fun h => edgeOperation_of_acceptsAs h
  | edgeNoise level ts =>
    exact next_guarded_eq fun h => edgeOperation_of_acceptsAs (Bool.and_eq_true_iff.mp h).1
  | edgeDesync level ts =>
    exact next_guarded_eq fun h => edgeOperation_of_acceptsAs (Bool.and_eq_true_iff.mp h).1
  | readEmpty => exact next_guarded_eq readOperation_of_whenEmpty
  | readZero => exact next_guarded_eq readOperation_of_whenZero
  | readOk => exact next_guarded_eq readOperation_of_whenOk
  | readBad => exact next_guarded_eq readOperation_of_whenBad
  | enable => rfl
  | disable => rfl

theorem exec_eq_next_iff (i : Instr) (s t : State) :
    exec i s = .next t ↔ runOperation (operationOf i) s = t := by
  rw [exec_eq_runOperation, Host.Outcome.next.injEq]

end Sys2Proof.Machine
end

section
/-! Who writes which state element (spec/10_state.md R18, R19): what each operation leaves unchanged, and O32. -/

namespace Sys2Proof.Machine

theorem decoderClear_decoderReset (s : State) : DecoderClear (decoderReset s) := ⟨rfl, rfl, rfl, rfl, rfl⟩

/-- A `READ` returns some word and otherwise leaves the state or clears DecoderState. -/
theorem readOperation_eq_returnResult (s : State) :
    ∃ r, readOperation s = returnResult r s ∨ readOperation s = returnResult r (decoderReset s) := by
  obtain ⟨-, h⟩ | ⟨-, -, h⟩ | ⟨-, -, -, h⟩ | ⟨-, -, -, h⟩ := readOperation_cases s
  · exact ⟨0, .inl h⟩
  · exact ⟨0, .inr h⟩
  · exact ⟨s.acc, .inr h⟩
  · exact ⟨0, .inr h⟩

/-- An `EDGE` writes elements of DecoderState only. -/
theorem edgeOperation_frame (level : Bool) (ts : Word) (s : State) :
    (edgeOperation level ts s).armed = s.armed ∧ (edgeOperation level ts s).results = s.results ∧
      (edgeOperation level ts s).inputs = s.inputs := by
  obtain ⟨-, h⟩ | ⟨-, -, h⟩ | ⟨-, -, -, h⟩ | ⟨-, -, -, -, ⟨-, h⟩ | ⟨bit, -, h⟩ | ⟨-, h⟩⟩ :=
    edgeOperation_cases level ts s <;> rw [h] <;> exact ⟨rfl, rfl, rfl⟩

theorem readOperation_frame (s : State) :
    (readOperation s).armed = s.armed ∧ (readOperation s).inputs = s.inputs := by
  obtain ⟨r, h | h⟩ := readOperation_eq_returnResult s <;> rw [h] <;> exact ⟨rfl, rfl⟩

/-- No operation touches the operations still waiting. -/
theorem runOperation_inputs (o : Operation) (s : State) : (runOperation o s).inputs = s.inputs := by
  cases o with
  | edge level ts => exact (edgeOperation_frame level ts s).2.2
  | read => exact (readOperation_frame s).2
  | enable => rfl
  | disable => rfl

/-- `ENABLE` and `DISABLE` alone write `ARMED` (R11, R19). -/
theorem runOperation_armed {o : Operation} (s : State) (he : o ≠ .enable) (hd : o ≠ .disable) :
    (runOperation o s).armed = s.armed := by
  cases o with
  | edge level ts => exact (edgeOperation_frame level ts s).1
  | read => exact (readOperation_frame s).1
  | enable => exact absurd rfl he
  | disable => exact absurd rfl hd

/-- `READ` alone returns a `RESULT` (R19, R50). -/
theorem runOperation_results {o : Operation} (s : State) (hr : o ≠ .read) :
    (runOperation o s).results = s.results := by
  cases o with
  | edge level ts => exact (edgeOperation_frame level ts s).2.1
  | read => exact absurd rfl hr
  | enable => rfl
  | disable => rfl

/-- What is not an `EDGE` clears DecoderState or leaves all of it alone (R18, R19). -/
theorem runOperation_clears_or_keeps {o : Operation} (s : State) (ho : ∀ level ts, o ≠ .edge level ts) :
    DecoderClear (runOperation o s) ∨
      ((runOperation o s).lastLevel = s.lastLevel ∧ (runOperation o s).lastTime = s.lastTime ∧
        (runOperation o s).bitCount = s.bitCount ∧ (runOperation o s).acc = s.acc ∧
        (runOperation o s).frameComplete = s.frameComplete) := by
  cases o with
  | edge level ts => exact absurd rfl (ho level ts)
  | read =>
    rw [runOperation]
    obtain ⟨r, h | h⟩ := readOperation_eq_returnResult s <;> rw [h]
    · exact .inr ⟨rfl, rfl, rfl, rfl, rfl⟩
    · exact .inl (decoderClear_decoderReset s)
  | enable => exact .inl (decoderClear_decoderReset s)
  | disable => exact .inl (decoderClear_decoderReset s)

/-- Settles O32: each clause is the frame lemma of its element, for the operation the row belongs to. -/
theorem eachElementHasItsWriters : Obligations.EachElementHasItsWriters := by
  intro i s t ht
  obtain rfl := (exec_eq_next_iff i s t).mp ht
  refine ⟨runOperation_clears_or_keeps s, runOperation_armed s, runOperation_results s, ?_, runOperation_inputs _ s⟩
  rintro ⟨level, ts, ho⟩ hflag
  have hheld : runOperation (.edge level ts) s = s := edgeOperation_held level ts hflag
  rw [ho, hheld, hflag]

end Sys2Proof.Machine
end

section
/-! The invariants I1 to I5 (spec/10_state.md R20): kept by each state operation, so by each of the four operations, so by
every step. -/

namespace Sys2Proof.Machine

/-- The invariants do not speak of the operations still waiting. -/
theorem inv_setInputs_iff (s : State) (l : List EventWord) : Inv { s with inputs := l } ↔ Inv s := Iff.rfl

/-- The invariants do not speak of the words returned. -/
theorem inv_returnResult_iff (r : Word) (s : State) : Inv (returnResult r s) ↔ Inv s := Iff.rfl

/-- A clear DecoderState meets the invariants in both values of `ARMED`. -/
theorem inv_of_decoderClear {s : State} (h : DecoderClear s) : Inv s := by
  obtain ⟨-, -, hcount, hacc, hflag⟩ := id h
  refine ⟨?bounded, ?flag, fun _ => h, fun _ => hacc, ?lowBits⟩
  case bounded => simp [CountBounded, hcount]
  case flag => simp [FlagIffDone, hcount, hflag]
  case lowBits =>
    intro j _ _
    rw [hacc]
    exact BitVec.getLsbD_zero

/-- I3 asks nothing of an armed block, so that edges need only I1, I2, I4 and I5. -/
theorem disarmedClear_of_armed {s : State} (ha : s.armed = true) : DisarmedClear s := by
  simp [DisarmedClear, ha]

theorem inv_trackLevel {s : State} (level : Bool) (ha : s.armed = true) (hi : Inv s) : Inv (trackLevel level s) := by
  obtain ⟨hbounded, hflag, -, huncounted, hlow⟩ := hi
  exact ⟨hbounded, hflag, disarmedClear_of_armed ha, huncounted, hlow⟩

theorem inv_recordEdge {s : State} (ts : Word) (ha : s.armed = true) (hi : Inv s) : Inv (recordEdge ts s) := by
  obtain ⟨hbounded, hflag, -, huncounted, hlow⟩ := hi
  exact ⟨hbounded, hflag, disarmedClear_of_armed ha, huncounted, hlow⟩

theorem inv_seedFrame {s : State} (ha : s.armed = true) (hf : s.frameComplete = false) : Inv (seedFrame s) := by
  refine ⟨?bounded, ?flag, disarmedClear_of_armed ha, fun _ => rfl, ?lowBits⟩
  case bounded => simp [CountBounded]
  case flag => simp [FlagIffDone, hf]
  case lowBits => exact fun j _ _ => BitVec.getLsbD_zero

/-- While no frame is pending the count has room for one more data bit: I1 and I2 give at most 32 (R20). -/
theorem bitCount_le_of_not_complete {s : State} (hi : Inv s) (hf : s.frameComplete = false) :
    s.bitCount.toNat ≤ 32 := by
  obtain ⟨hbounded, hflag, -⟩ := hi
  have hne : s.bitCount ≠ 33 := fun h => by simp [hflag.mpr h] at hf
  bv_omega

/-- The count does not wrap below 63 (R7, R14). -/
theorem count_add_one_toNat {count : Count} (h : count.toNat ≤ 32) : (count + 1).toNat = count.toNat + 1 := by
  bv_omega

/-- A data bit keeps the invariants: the count has room, the flag is set exactly at 33, and the zeros below the collected
bits move down one place with them (I5). -/
theorem inv_shiftIn {s : State} (bit : Bool) (ha : s.armed = true) (hf : s.frameComplete = false) (hi : Inv s) :
    Inv (shiftIn bit s) := by
  have hroom := bitCount_le_of_not_complete hi hf
  have hsucc := count_add_one_toNat hroom
  obtain ⟨-, -, -, -, hlow⟩ := hi
  refine ⟨?bounded, ?flag, disarmedClear_of_armed ha, ?uncounted, ?lowBits⟩
  case bounded =>
    rw [CountBounded, shiftIn_bitCount, hsucc]
    omega
  case flag =>
    rw [FlagIffDone, shiftIn_frameComplete, hf, Bool.or_false, completes_iff, shiftIn_bitCount]
    bv_omega
  case uncounted =>
    intro hzero
    rw [shiftIn_bitCount] at hzero
    have hnot : s.bitCount.toNat + 1 = 0 := by rw [← hsucc, hzero]; rfl
    omega
  case lowBits =>
    intro j hj hbelow
    rw [shiftIn_bitCount, hsucc] at hbelow
    rw [shiftIn_acc, shiftedAcc_getLsbD bit s.acc j hj, if_neg (by omega)]
    exact hlow (j + 1) (by omega) (by omega)

theorem inv_edgeOperation (level : Bool) (ts : Word) {s : State} (hi : Inv s) : Inv (edgeOperation level ts s) := by
  obtain ⟨-, h⟩ | ⟨-, -, h⟩ | ⟨ha, -, -, h⟩ | ⟨ha, hf, -, -, ⟨-, h⟩ | ⟨bit, -, h⟩ | ⟨-, h⟩⟩ :=
    edgeOperation_cases level ts s <;> rw [h]
  · exact hi
  · exact hi
  · exact inv_trackLevel level ha hi
  · exact inv_seedFrame ha hf
  · exact inv_shiftIn bit ha hf (inv_recordEdge ts ha hi)
  · exact inv_recordEdge ts ha hi

theorem inv_readOperation {s : State} (hi : Inv s) : Inv (readOperation s) := by
  obtain ⟨r, h | h⟩ := readOperation_eq_returnResult s <;> rw [h, inv_returnResult_iff]
  · exact hi
  · exact inv_of_decoderClear (decoderClear_decoderReset s)

theorem inv_runOperation (o : Operation) {s : State} (hi : Inv s) : Inv (runOperation o s) := by
  cases o with
  | edge level ts => exact inv_edgeOperation level ts hi
  | read => exact inv_readOperation hi
  | enable => exact inv_of_decoderClear (decoderClear_decoderReset s)
  | disable => exact inv_of_decoderClear (decoderClear_decoderReset s)

/-- Every row keeps the invariants in every state that meets them. -/
theorem exec_keeps_inv {i : Instr} {s t : State} (hi : Inv s) (ht : exec i s = .next t) : Inv t := by
  obtain rfl := (exec_eq_next_iff i s t).mp ht
  exact inv_runOperation _ hi

/-- Settles O35: an idle step changes nothing, and any other step is a row on the state with its event word taken. -/
theorem stepKeepsTheFiveInvariants : Obligations.StepKeepsTheFiveInvariants := by
  intro s t hi ht
  cases hin : s.inputs with
  | nil =>
    rw [step_nil hin] at ht
    cases ht
    exact hi
  | cons ev rest =>
    rw [step_cons hin] at ht
    exact exec_keeps_inv ((inv_setInputs_iff s rest).mpr hi) ht

/-- Settles O34: all of DecoderState is 0 after reset. -/
theorem resetMeetsTheFiveInvariants : Obligations.ResetMeetsTheFiveInvariants :=
  inv_of_decoderClear (s := State.reset) ⟨rfl, rfl, rfl, rfl, rfl⟩

/-- Settles O33. -/
theorem powerOnResetClearsEveryElement : Obligations.PowerOnResetClearsEveryElement :=
  ⟨rfl, rfl, rfl, rfl, rfl, rfl⟩

/-- Settles O7: the model takes no operation from an empty list. -/
theorem stepWithNothingWaitingChangesNothing : Obligations.StepWithNothingWaitingChangesNothing :=
  fun _ hin => step_nil hin

end Sys2Proof.Machine
end

section
/-! A step as the whole operation its event word denotes (spec/30_encoding.md R41, R42; spec/20_memory.md R35), and the
destructive read of the frame slot (spec/20_memory.md R34; spec/42_receiver_ops.md R92, R93). -/

namespace Sys2Proof.Machine

/-- The state chooses among the rows of an operation, never the operation (R42). -/
@[simp] theorem operationOf_subcase (s : State) (o : Operation) : operationOf (subcase s o) = o := by
  cases o with
  | edge level ts =>
    simp only [subcase]
    repeat' split
    all_goals rfl
  | read =>
    simp only [subcase]
    repeat' split
    all_goals rfl
  | enable => rfl
  | disable => rfl

/-- A step with an event word waiting is the operation the word denotes, on the state with the word taken. -/
theorem step_eq_runOperation {s : State} {ev : EventWord} {rest : List EventWord} (h : s.inputs = ev :: rest) :
    step s = .next (runOperation (decodeOperation ev) { s with inputs := rest }) := by
  rw [step_cons h, exec_eq_runOperation, decodeAt, operationOf_subcase]

theorem decodeOperation_of_evOp_one {ev : EventWord} (h : evOp ev = 1) : decodeOperation ev = .read := by
  simp [decodeOperation, h]

theorem step_read {s : State} {ev : EventWord} {rest : List EventWord} (hop : evOp ev = 1)
    (h : s.inputs = ev :: rest) : step s = .next (readOperation { s with inputs := rest }) := by
  rw [step_eq_runOperation h, decodeOperation_of_evOp_one hop, runOperation]

/-- A poll without a pending frame returns 0 and writes nothing (R92). -/
theorem readOperation_of_empty {s : State} (hf : s.frameComplete = false) : readOperation s = returnResult 0 s :=
  readOperation_of_whenEmpty (by simp [whenEmpty, hf])

/-- A poll of a pending frame frees the slot, whatever becomes of the frame (R93). -/
theorem readOperation_of_pending {s : State} (hf : s.frameComplete = true) :
    ∃ r, (r = s.acc ∨ r = 0) ∧ readOperation s = returnResult r (decoderReset s) := by
  obtain ⟨hempty, -⟩ | ⟨-, -, h⟩ | ⟨-, -, -, h⟩ | ⟨-, -, -, h⟩ := readOperation_cases s
  · simp [hf] at hempty
  · exact ⟨0, .inr rfl, h⟩
  · exact ⟨s.acc, .inl rfl, h⟩
  · exact ⟨0, .inr rfl, h⟩

/-- Settles O53: the first poll clears `FRAME_COMPLETE` with the rest of DecoderState, so the second finds no frame. -/
theorem secondReadReturnsNothing : Obligations.SecondReadReturnsNothing := by
  intro s ev₁ ev₂ rest hop₁ hop₂ hf hin
  obtain ⟨r, hr, hread⟩ := readOperation_of_pending (s := { s with inputs := ev₂ :: rest }) hf
  have hfirst : step s = .next (returnResult r (decoderReset { s with inputs := ev₂ :: rest })) := by
    rw [step_read hop₁ hin, hread]
  have hsecond : step (returnResult r (decoderReset { s with inputs := ev₂ :: rest })) =
      .next (returnResult 0 (returnResult r (decoderReset { s with inputs := rest }))) := by
    rw [step_read hop₂ rfl, readOperation_of_empty rfl]
    rfl
  refine ⟨returnResult 0 (returnResult r (decoderReset { s with inputs := rest })), r, ?runs, ?results, hr,
    decoderClear_decoderReset s, rfl, rfl⟩
  case runs => rw [RunsTo, runSteps_succ hfirst, runSteps_succ hsecond, runSteps_zero]
  case results => simp

end Sys2Proof.Machine
end

section
/-! The bands of a delta (spec/40_edge_decoder.md R44) as the exact rational bands of the reference periods (R4). -/

namespace Sys2Proof.Machine

/-- Settles O40: multiplied out, each rational band has the integers of its closed band and no others. -/
theorem classifyIsTheClosedBands : Obligations.ClassifyIsTheClosedBands := by
  intro d
  refine ⟨classify_start_iff d, classify_one_iff d, classify_zero_iff d, ?start, ?one, ?zero⟩
  case start => rw [classify_start_iff, Config.tStart]; omega
  case one => rw [classify_one_iff, Config.tOne]; omega
  case zero => rw [classify_zero_iff, Config.tZero]; omega

end Sys2Proof.Machine
end

section
/-! The validity test of a frame (spec/41_checksum.md R85) as the comparison of its checksum field, and the bits it reads
(spec/30_encoding.md R51). -/

namespace Sys2Proof.Machine

/-- XOR-ing a byte into bits 29:22 acts on the checksum field alone (R85). -/
theorem crcField_xor (w : Word) (c : Byte) :
    (w ^^^ c.setWidth 32 <<< 22).extractLsb' 22 8 = w.extractLsb' 22 8 ^^^ c := by
  ext i hi
  have hplace : 22 + i < 32 := by omega
  simp [hplace, hi]

/-- A frame is valid exactly if its checksum field holds the checksum of its low 24 bits (R85). -/
theorem valid_iff_crcField_eq (w : Word) : valid w = true ↔ w.extractLsb' 22 8 = crc8 (w.extractLsb' 0 24) := by
  rw [valid, Config.crcPos, crcField_xor, beq_iff_eq]
  exact BitVec.xor_eq_zero_iff

/-- Bits 31:30 are in no field below bit 30. -/
theorem extractLsb'_xor_unused (w : Word) (u : BitVec 2) (lo len : Nat) (h : lo + len ≤ 30) :
    (w ^^^ u.setWidth 32 <<< 30).extractLsb' lo len = w.extractLsb' lo len := by
  ext i hi
  have hbelow : lo + i < 30 := by omega
  simp [hbelow]

/-- Settles O48: the checksum field and the checksum's input lie below bit 30. -/
theorem unusedBitsAreNeverTested : Obligations.UnusedBitsAreNeverTested := by
  intro w u
  rw [Bool.eq_iff_iff, valid_iff_crcField_eq, valid_iff_crcField_eq, extractLsb'_xor_unused w u 22 8 (by omega),
    extractLsb'_xor_unused w u 0 24 (by omega)]

end Sys2Proof.Machine
end

section
/-! The row a state selects for an operation (spec/30_encoding.md R42): its condition holds, its operands are the rule's, and
no other row of the operation has its condition true. So decoding a row's event word gives the row back (R41). -/

namespace Sys2Proof.Machine

/-- The row of an accepted edge, by the class of its delta and, out of band, by the count (R64 to R68). -/
def acceptedRow (c : Symbol) (count : Count) (level : Bool) (ts : Word) : Instr :=
  match c with
  | .start => .edgeStart level ts
  | .one => .edgeOne level ts
  | .zero => .edgeZero level ts
  | .none => if count = 0 then .edgeNoise level ts else .edgeDesync level ts

/-- The row of an edge: the tests of R71 before the classes of an accepted one. -/
theorem subcase_edge_eq (s : State) (level : Bool) (ts : Word) :
    subcase s (.edge level ts) =
      if s.armed = false then .edgeOff level ts
      else if s.frameComplete = true then .edgeHeld level ts
      else if ¬(s.lastLevel = false ∧ level = true) then .edgeSkip level ts
      else acceptedRow (classify (delta s.lastTime ts)) s.bitCount level ts := by
  rfl

theorem subcase_edge_off {s : State} (level : Bool) (ts : Word) (ha : s.armed = false) :
    subcase s (.edge level ts) = .edgeOff level ts := by
  rw [subcase_edge_eq, if_pos ha]

theorem subcase_edge_held {s : State} (level : Bool) (ts : Word) (ha : s.armed = true) (hf : s.frameComplete = true) :
    subcase s (.edge level ts) = .edgeHeld level ts := by
  rw [subcase_edge_eq, if_neg (by simp [ha]), if_pos hf]

theorem subcase_edge_skip {s : State} {level : Bool} (ts : Word) (ha : s.armed = true) (hf : s.frameComplete = false)
    (hl : ¬(s.lastLevel = false ∧ level = true)) : subcase s (.edge level ts) = .edgeSkip level ts := by
  rw [subcase_edge_eq, if_neg (by simp [ha]), if_neg (by simp [hf]), if_pos hl]

theorem subcase_edge_accepted {s : State} (ts : Word) (ha : s.armed = true) (hf : s.frameComplete = false)
    (hl : s.lastLevel = false) :
    subcase s (.edge true ts) = acceptedRow (classify (delta s.lastTime ts)) s.bitCount true ts := by
  rw [subcase_edge_eq, if_neg (by simp [ha]), if_neg (by simp [hf]), if_neg (by simp [hl])]

/-- The row of an accepted edge is selected, and its operand `level` is 1. -/
theorem selects_acceptedRow {s : State} {c : Symbol} {ts : Word} (h : acceptsAs c true ts s = true) :
    selects (acceptedRow c s.bitCount true ts) s = true ∧ (acceptedRow c s.bitCount true ts).wf = true := by
  cases c with
  | start => exact ⟨h, rfl⟩
  | one => exact ⟨h, rfl⟩
  | zero => exact ⟨h, rfl⟩
  | none =>
    by_cases hcount : s.bitCount = 0
    · rw [acceptedRow, if_pos hcount]
      exact ⟨Bool.and_eq_true_iff.mpr ⟨h, beq_iff_eq.mpr hcount⟩, rfl⟩
    · rw [acceptedRow, if_neg hcount]
      exact ⟨Bool.and_eq_true_iff.mpr ⟨h, bne_iff_ne.mpr hcount⟩, rfl⟩

/-- The row that runs has its condition true and operands as its rule gives them (R42). -/
theorem selects_subcase (s : State) (o : Operation) : selects (subcase s o) s = true ∧ (subcase s o).wf = true := by
  cases o with
  | edge level ts =>
    obtain ⟨ha, -⟩ | ⟨ha, hf, -⟩ | ⟨ha, hf, hl, -⟩ | ⟨ha, hf, hl, rfl, -⟩ := edgeOperation_cases level ts s
    · rw [subcase_edge_off level ts ha]
      simp [selects, whenOff, ha, Instr.wf]
    · rw [subcase_edge_held level ts ha hf]
      simp [selects, whenHeld, ha, hf, Instr.wf]
    · rw [subcase_edge_skip ts ha hf hl]
      exact ⟨(whenSkip_iff level s).mpr ⟨ha, hf, hl⟩, rfl⟩
    · rw [subcase_edge_accepted ts ha hf hl]
      exact selects_acceptedRow ((acceptsAs_iff _ true ts s).mpr ⟨⟨ha, hf, hl, rfl⟩, rfl⟩)
  | read =>
    obtain ⟨hf, -⟩ | ⟨hf, hz, -⟩ | ⟨hf, hz, hv, -⟩ | ⟨hf, hz, hv, -⟩ := readOperation_cases s
    · simp [subcase, selects, whenEmpty, hf, Instr.wf]
    · simp [subcase, selects, whenZero, hf, hz, Instr.wf]
    · simp [subcase, selects, whenOk, hf, hz, hv, Instr.wf]
    · simp [subcase, selects, whenBad, hf, hz, hv, Instr.wf]
  | enable => exact ⟨rfl, rfl⟩
  | disable => exact ⟨rfl, rfl⟩

theorem subcase_edge_of_acceptsAs {s : State} {c : Symbol} {level : Bool} {ts : Word}
    (h : acceptsAs c level ts s = true) : subcase s (.edge level ts) = acceptedRow c s.bitCount level ts := by
  obtain ⟨⟨ha, hf, hl, rfl⟩, rfl⟩ := (acceptsAs_iff c level ts s).mp h
  exact subcase_edge_accepted ts ha hf hl

/-- A row whose condition holds is the row that runs: the conditions of one operation exclude each other (R42). -/
theorem subcase_of_selects {i : Instr} {s : State} (h : selects i s = true) : subcase s (operationOf i) = i := by
  cases i with
  | edgeOff level ts => exact subcase_edge_off level ts (by simpa [selects, whenOff] using h)
  | edgeHeld level ts =>
    obtain ⟨ha, hf⟩ := Bool.and_eq_true_iff.mp h
    exact subcase_edge_held level ts ha hf
  | edgeSkip level ts =>
    obtain ⟨ha, hf, hl⟩ := (whenSkip_iff level s).mp h
    exact subcase_edge_skip ts ha hf hl
  | edgeStart level ts => exact subcase_edge_of_acceptsAs h
  | edgeOne level ts => exact subcase_edge_of_acceptsAs h
  | edgeZero level ts => exact subcase_edge_of_acceptsAs h
  | edgeNoise level ts =>
    obtain ⟨hout, hcount⟩ := Bool.and_eq_true_iff.mp h
    exact (subcase_edge_of_acceptsAs hout).trans (if_pos (eq_of_beq hcount))
  | edgeDesync level ts =>
    obtain ⟨hout, hcount⟩ := Bool.and_eq_true_iff.mp h
    exact (subcase_edge_of_acceptsAs hout).trans (if_neg (bne_iff_ne.mp hcount))
  | readEmpty => simp_all [selects, whenEmpty, operationOf, subcase]
  | readZero => simp_all [selects, whenZero, operationOf, subcase]
  | readOk => simp_all [selects, whenOk, operationOf, subcase]
  | readBad => simp_all [selects, whenBad, operationOf, subcase]
  | enable => rfl
  | disable => rfl

/-- The event word written for a row denotes the row's operation (R41, R42). -/
theorem decodeOperation_encode (i : Instr) : decodeOperation (encode i) = operationOf i :=
  decodeOperation_encodeOperation _

/-- Settles O1: the word gives the operation back, and of its rows the state selects this one. -/
theorem decodeOfEncodeIsTheSelectedRow : Obligations.DecodeOfEncodeIsTheSelectedRow := by
  intro i s _ hsel
  rw [decodeAt, decodeOperation_encode, subcase_of_selects hsel]

/-- The row of an accepted edge by the integer bands of its delta, in the order of R42's table. -/
theorem acceptedRow_classify (d : Word) (count : Count) (level : Bool) (ts : Word) :
    acceptedRow (classify d) count level ts =
      if 10800 ≤ d.toNat ∧ d.toNat ≤ 16875 then .edgeStart level ts
      else if 1800 ≤ d.toNat ∧ d.toNat ≤ 2812 then .edgeOne level ts
      else if 896 ≤ d.toNat ∧ d.toNat ≤ 1400 then .edgeZero level ts
      else if count = 0 then .edgeNoise level ts
      else .edgeDesync level ts := by
  simp only [← classify_start_iff, ← classify_one_iff, ← classify_zero_iff]
  cases classify d <;> simp [acceptedRow]

theorem subcase_read_eq (s : State) :
    subcase s .read =
      if s.frameComplete = false then .readEmpty
      else if s.acc = 0 then .readZero
      else if s.acc.extractLsb' 22 8 = crc8 (s.acc.extractLsb' 0 24) then .readOk
      else .readBad := by
  simp only [subcase, isSentinel_iff, valid_iff_crcField_eq]

/-- Settles O4: `subcase_of_selects` gives uniqueness; the integer bands and the comparison of the checksum field turn the
tests of `subcase` into the conditions of R42's table. -/
theorem exactlyOneRowIsSelected : Obligations.ExactlyOneRowIsSelected := by
  intro s
  refine ⟨fun o => ⟨⟨operationOf_subcase s o, selects_subcase s o⟩, ?unique⟩, ?edge, subcase_read_eq s, rfl, rfl⟩
  case unique =>
    rintro i rfl hsel
    exact (subcase_of_selects hsel).symm
  case edge =>
    intro level ts
    rw [subcase_edge_eq, acceptedRow_classify, delta]

end Sys2Proof.Machine
end

section
/-! What a row and a step do depends on the event word alone, not on the row that names it (spec/30_encoding.md R41,
R42; log 5 to log 7). -/

namespace Sys2Proof.Machine

/-- Settles O5: the word fixes the operation, and every row is its whole operation. -/
theorem sameEventWordSameEffect : Obligations.SameEventWordSameEffect := by
  intro i j s hword
  have hop : operationOf i = operationOf j := by
    rw [← decodeOperation_encode i, hword, decodeOperation_encode j]
  rw [exec_eq_runOperation, exec_eq_runOperation, hop]

/-- Settles O6: the row `decodeAt` names and the first row belong to the one operation the word denotes. -/
theorem stepRunsTheDecodedRow : Obligations.StepRunsTheDecodedRow := by
  intro s ev rest hin
  refine ⟨(selects_subcase s _).2, step_cons hin, ?_⟩
  have hop : operationOf (decode ev) = decodeOperation ev := by
    rw [decode]
    cases decodeOperation ev <;> rfl
  rw [step_eq_runOperation hin, exec_eq_runOperation, hop]

/-- A table word that the decoder reads has no bit above `EV[34]` (log 7). -/
theorem eventWord_of_decodeTableWord {nbits w : Nat} {i : Instr} (h : decodeTableWord nbits w = some i) :
    w % 2 ^ nbits < 2 ^ 35 := by
  by_contra hwide
  rw [decodeTableWord, decodeNumber, eventWordOf_ge _ (not_lt.mp hwide)] at h
  cases h

/-- Settles O8: placing the word and stepping once is the step of O6 from the state with the word in front. -/
theorem placedTableWordRunsAsDecoded : Obligations.PlacedTableWordRunsAsDecoded := by
  intro s nbits w i hdec
  have hw := eventWord_of_decodeTableWord hdec
  rw [decodeTableWord_eq nbits w hw] at hdec
  cases hdec
  obtain ⟨-, -, hstep⟩ := stepRunsTheDecodedRow (s.withFetchWord nbits w) _ s.inputs
    (congrArg State.inputs (placeNext_eventWord s nbits w hw))
  rw [hstep, State.withFetchWord, placeNext_eventWord s nbits w hw]

/-- Settles O21: an accepted edge out of band only records itself, a filtered one only tracks the level. -/
theorem outOfBandAndFilteredEdgesDisturbNothing : Obligations.OutOfBandAndFilteredEdgesDisturbNothing := by
  intro i level ts s hop hquiet
  refine ⟨edgeOperation level ts s, by rw [exec_eq_runOperation, hop, runOperation], ?_⟩
  obtain ⟨-, h⟩ | ⟨-, -, h⟩ | ⟨-, -, -, h⟩ | ⟨ha, hf, hl, rfl, -⟩ := edgeOperation_cases level ts s
  · simp [h]
  · simp [h]
  · simp [h]
  · have hnone : classify (delta s.lastTime ts) = .none := by simpa [hl, delta] using hquiet
    simp [edgeOperation_accepted ts ha hf hl, hnone]

end Sys2Proof.Machine
end

section
/-! The fields of the event word (spec/30_encoding.md R41). -/

namespace Sys2Proof

/-- The operation field is above the 33 bits that follow it. -/
theorem evOp_append (op : BitVec 2) (x : BitVec 33) : evOp (op ++ x : BitVec 35) = op :=
  BitVec.extractLsb'_append_eq_left

/-- An operation without operands is written with `EV[32:0] = 0` (R41). -/
theorem encodeOperation_setWidth (ev : EventWord) (h : evOp ev ≠ 0) :
    (encodeOperation (decodeOperation ev)).setWidth 33 = 0 := by
  rw [decodeOperation, if_neg h]
  split
  · rfl
  · split <;> rfl

/-- Settles O2: the fields read back from the packed word, and every word is the packing of its own fields. -/
theorem eventWordFieldsDecode : Obligations.EventWordFieldsDecode := by
  refine ⟨?edge, ?read, ?enable, ?disable, decodeOperation_encodeOperation, ?all⟩
  case edge => exact fun level ts => decodeOperation_packEvent 0 level ts
  case read => intro x; simp [decodeOperation, evOp_append]
  case enable => intro x; simp [decodeOperation, evOp_append]
  case disable => intro x; simp [decodeOperation, evOp_append]
  case all =>
    intro ev
    by_cases hop : evOp ev = 0
    · refine .inl ⟨evLevel ev, evTs ev, if_pos hop, ?_⟩
      rw [encodeOperation, ← hop, packEvent_fields]
    · exact .inr ⟨hop, encodeOperation_setWidth ev hop⟩

/-- Settles O3: ten words evaluated. -/
theorem exampleEventWordsDecode : Obligations.ExampleEventWordsDecode := by
  unfold Obligations.ExampleEventWordsDecode
  decide

end Sys2Proof
end

section
/-! The packet view of a frame (spec/30_encoding.md R48) in integers: insertion is the sum of the fields at their weights,
extraction a quotient and a remainder, so the two round trips are arithmetic. -/

namespace Sys2Proof.Machine

/-- OR-ing a field in above all bits set so far adds it at its weight. -/
theorem toNat_or_shiftLeft {n k m : Nat} {a : Word} (b : BitVec n) (ha : a.toNat = m) (hm : m < 2 ^ k)
    (hk : k + n ≤ 32) : (a ||| b.setWidth 32 <<< k).toNat = m + 2 ^ k * b.toNat := by
  have hfit : 2 ^ k * b.toNat < 2 ^ 32 := calc
    2 ^ k * b.toNat < 2 ^ k * 2 ^ n := Nat.mul_lt_mul_of_pos_left b.isLt (by positivity)
    _ = 2 ^ (k + n) := (pow_add 2 k n).symm
    _ ≤ 2 ^ 32 := Nat.pow_le_pow_right (by decide) hk
  rw [BitVec.toNat_or, BitVec.toNat_shiftLeft, BitVec.toNat_setWidth_of_le (by omega), Nat.shiftLeft_eq,
    Nat.mul_comm, Nat.mod_eq_of_lt hfit, ha, Nat.or_comm, ← Nat.two_pow_add_eq_or_of_lt hm, Nat.add_comm]

/-- The inserted word is the sum of its fields at their weights (R48). -/
theorem packetWord_toNat (p : Packet) : (packetWord p).toNat =
    p.channel.toNat + 2 ^ 1 * p.team.toNat + 2 ^ 4 * p.action.toNat + 2 ^ 6 * p.actionParam.toNat +
      2 ^ 10 * p.playerId.toNat + 2 ^ 22 * p.crc.toNat + 2 ^ 30 * p.unused.toNat := by
  have hchannel : (p.channel.setWidth 32).toNat = p.channel.toNat := BitVec.toNat_setWidth_of_le (by omega)
  have hteam := toNat_or_shiftLeft (k := 1) p.team hchannel (by omega) (by omega)
  have haction := toNat_or_shiftLeft (k := 4) p.action hteam (by omega) (by omega)
  have hparam := toNat_or_shiftLeft (k := 6) p.actionParam haction (by omega) (by omega)
  have hplayer := toNat_or_shiftLeft (k := 10) p.playerId hparam (by omega) (by omega)
  have hcrc := toNat_or_shiftLeft (k := 22) p.crc hplayer (by omega) (by omega)
  exact toNat_or_shiftLeft (k := 30) p.unused hcrc (by omega) (by omega)

theorem extractLsb'_toNat_eq (w : Word) (lo len : Nat) : (w.extractLsb' lo len).toNat = w.toNat / 2 ^ lo % 2 ^ len := by
  rw [BitVec.extractLsb'_toNat, Nat.shiftRight_eq_div_pow]

theorem packetWord_packetOf (w : Word) : packetWord (packetOf w) = w := by
  apply BitVec.eq_of_toNat_eq
  simp only [packetWord_toNat, packetOf, extractLsb'_toNat_eq]
  omega

theorem packetOf_packetWord (p : Packet) : packetOf (packetWord p) = p := by
  have hword := packetWord_toNat p
  obtain ⟨channel, team, action, actionParam, playerId, crc, unused⟩ := p
  simp only [packetOf, Packet.mk.injEq, ← BitVec.toNat_inj, extractLsb'_toNat_eq, hword]
  omega

/-- Settles O50: the first clause is the definition, the other three are the integer view. -/
theorem packetFieldsSitAtTheirBits : Obligations.PacketFieldsSitAtTheirBits :=
  ⟨fun _ => rfl, packetWord_toNat, packetWord_packetOf, packetOf_packetWord⟩

end Sys2Proof.Machine
end

section
/-! Edges off the line (spec/30_encoding.md R46, R47): one falling and one rising edge as a step each, a run of cells as one
equation, and where its bits stand in `ACC`. -/

namespace Sys2Proof.Machine

theorem step_edge {s : State} {level : Bool} {ts : Word} {rest : List EventWord}
    (h : s.inputs = encodeOperation (.edge level ts) :: rest) :
    step s = .next (edgeOperation level ts { s with inputs := rest }) := by
  rw [step_eq_runOperation h, decodeOperation_encodeOperation, runOperation]

theorem edgeOperation_rise {s : State} (ts : Word) (ha : s.armed = true) (hf : s.frameComplete = false)
    (hl : s.lastLevel = false) : edgeOperation true ts s = acceptedEdge (classify (delta s.lastTime ts)) ts s :=
  edgeOperation_accepted ts ha hf hl

/-- A falling edge and the rising edge behind it: only the rising one is accepted, and it overwrites the level the falling
one left (R62, R63). -/
theorem runsTo_fall_rise {s : State} {tf ts : Word} {rest : List EventWord} (ha : s.armed = true)
    (hf : s.frameComplete = false) (hin : s.inputs = fall tf :: rise ts :: rest) :
    RunsTo 2 s (acceptedEdge (classify (delta s.lastTime ts)) ts { s with inputs := rest }) := by
  have hfall : step s = .next (trackLevel false { s with inputs := rise ts :: rest }) := by
    rw [step_edge hin]
    exact congrArg _ (edgeOperation_skip tf ha hf (by simp))
  have hrise : step (trackLevel false { s with inputs := rise ts :: rest }) =
      .next (acceptedEdge (classify (delta s.lastTime ts)) ts (trackLevel false { s with inputs := rest })) := by
    rw [step_edge rfl]
    exact congrArg _ (edgeOperation_rise ts ha hf rfl)
  rw [RunsTo, runSteps_succ hfall, runSteps_succ hrise, runSteps_zero]
  cases classify (delta s.lastTime ts) <;> rfl

theorem runsTo_trans {m n : Nat} {s t u : State} (hst : RunsTo m s t) (htu : RunsTo n t u) : RunsTo (m + n) s u :=
  (runSteps_add hst).trans htu

theorem runsTo_step {n : Nat} {s t u : State} (hst : RunsTo n s t) (htu : step t = .next u) : RunsTo (n + 1) s u :=
  runsTo_trans hst ((runSteps_succ htu).trans (runSteps_zero u))

/-- The delta across a cell is its period, also where the time base wraps (R7, R46). -/
theorem delta_add (t period : Word) : delta t (t + period) = period :=
  ((add_eq_iff_eq_delta _ _ _).mp rfl).symm

theorem acceptedEdge_of_cellBit {c : Cell} {bit : Bool} (h : cellBit c = some bit) (ts : Word) (s : State) :
    acceptedEdge (classify c.period) ts s = shiftIn bit (recordEdge ts s) := by
  unfold cellBit at h
  cases hc : classify c.period <;> simp only [hc] at h <;> cases h <;> rfl

/-- A cell is one data bit, taken at the rising edge that closes it (R46). -/
theorem runsTo_cell {s : State} {c : Cell} {cs : List Cell} {bit : Bool} {rest : List EventWord} (ha : s.armed = true)
    (hf : s.frameComplete = false) (hbit : cellBit c = some bit)
    (hin : s.inputs = cellEdges s.lastTime (c :: cs) ++ rest) :
    RunsTo 2 s (shiftIn bit (recordEdge (s.lastTime + c.period)
      { s with inputs := cellEdges (s.lastTime + c.period) cs ++ rest })) := by
  have hrun := runsTo_fall_rise ha hf hin
  rwa [delta_add, acceptedEdge_of_cellBit hbit] at hrun

/-- The accumulator after data bits, the first sent shifted in first (R47). -/
def assembled (acc : Word) (bits : List Bool) : Word := bits.foldl (fun a b => shiftedAcc b a) acc

/-- Each data bit enters at bit 31 and is moved down by one place by each that follows. -/
theorem assembled_getLsbD (bits : List Bool) (acc : Word) (j : Nat) (hj : j < 32) :
    some ((assembled acc bits).getLsbD j) =
      if j + bits.length < 32 then some (acc.getLsbD (j + bits.length)) else bits[j + bits.length - 32]? := by
  induction bits generalizing acc with
  | nil => simp [assembled, hj]
  | cons b bs ih =>
    have hshift : assembled acc (b :: bs) = assembled (shiftedAcc b acc) bs := rfl
    rw [hshift, ih, List.length_cons]
    obtain hlt | heq | hgt := Nat.lt_trichotomy (j + bs.length) 31
    · rw [if_pos (by omega), if_pos (by omega), shiftedAcc_getLsbD b acc _ (by omega), if_neg (by omega)]
      rfl
    · rw [if_pos (by omega), if_neg (by omega), shiftedAcc_getLsbD b acc _ (by omega), if_pos heq]
      simp [← Nat.add_assoc, heq]
    · have hsub : j + (bs.length + 1) - 32 = j + bs.length - 32 + 1 := by omega
      rw [if_neg (by omega), if_neg (by omega), hsub, List.getElem?_cons_succ]

/-- The completion test on the new count (R69). -/
theorem completes_eq_decide_toNat (count : Count) : completes count = decide ((count + 1).toNat = 33) := by
  revert count; decide

/-- The state a run of cells leaves: the edge times recorded, the bits shifted in and counted, the flag set at 33. -/
def receivedCells (lastTime : Word) (bits : List Bool) (rest : List EventWord) (s : State) : State :=
  { s with
    lastLevel := true
    lastTime := lastTime
    bitCount := s.bitCount + BitVec.ofNat 6 bits.length
    acc := assembled s.acc bits
    frameComplete := decide (s.bitCount.toNat + bits.length = 33)
    inputs := rest }

theorem receivedCells_nil {s : State} (hl : s.lastLevel = true) (hflag : s.frameComplete = decide (s.bitCount.toNat = 33)) :
    receivedCells s.lastTime [] s.inputs s = s := by
  cases s
  simp_all [receivedCells, assembled]

/-- One cell more in front is one data bit shifted in first. -/
theorem receivedCells_cons {s : State} (lastTime ts : Word) (bit : Bool) (bits : List Bool) (l rest : List EventWord)
    (hroom : s.bitCount.toNat < 33) :
    receivedCells lastTime bits rest (shiftIn bit (recordEdge ts { s with inputs := l })) =
      receivedCells lastTime (bit :: bits) rest s := by
  have hcount : (s.bitCount + 1).toNat = s.bitCount.toNat + 1 := count_add_one_toNat (by omega)
  have hsum : s.bitCount + 1 + BitVec.ofNat 6 bits.length = s.bitCount + BitVec.ofNat 6 (bits.length + 1) := by
    rw [Nat.add_comm, BitVec.ofNat_add, add_assoc]
    rfl
  simp only [receivedCells, shiftIn_bitCount, recordEdge_bitCount, hcount, hsum, List.length_cons,
    Nat.add_assoc, Nat.add_comm 1]
  rfl

/-- A run of cells, in any state whose count has room for them and whose flag says whether the count is 33 (R46, R69). -/
theorem runsTo_cellEdges {s : State} {cells : List Cell} {bits : List Bool} {rest : List EventWord}
    (ha : s.armed = true) (hl : s.lastLevel = true) (hflag : s.frameComplete = decide (s.bitCount.toNat = 33))
    (hbits : cells.map cellBit = bits.map some) (hroom : s.bitCount.toNat + bits.length ≤ 33)
    (hin : s.inputs = cellEdges s.lastTime cells ++ rest) :
    RunsTo (2 * bits.length) s (receivedCells (lastRise s.lastTime cells) bits rest s) := by
  induction cells generalizing s bits with
  | nil =>
    obtain rfl : bits = [] := by simpa using hbits.symm
    obtain rfl : s.inputs = rest := hin
    rw [lastRise, receivedCells_nil hl hflag]
    rfl
  | cons c cs ih =>
    cases bits with
    | nil => simp at hbits
    | cons b bs =>
      obtain ⟨hbit, hbs⟩ : cellBit c = some b ∧ cs.map cellBit = bs.map some := by simpa using hbits
      rw [List.length_cons] at hroom
      have hopen : s.frameComplete = false := by simp [hflag]; omega
      have hcell := runsTo_cell ha hopen hbit hin
      have hcount : (s.bitCount + 1).toNat = s.bitCount.toNat + 1 := count_add_one_toNat (by omega)
      have hroom' : (s.bitCount + 1).toNat + bs.length ≤ 33 := by omega
      have hflag' : (completes s.bitCount || s.frameComplete) = decide ((s.bitCount + 1).toNat = 33) := by
        rw [hopen, Bool.or_false, completes_eq_decide_toNat]
      have hrun := ih (s := shiftIn b (recordEdge (s.lastTime + c.period)
        { s with inputs := cellEdges (s.lastTime + c.period) cs ++ rest })) ha rfl hflag' hbs hroom' rfl
      rw [receivedCells_cons _ _ _ _ _ _ (by omega)] at hrun
      rw [List.length_cons, Nat.mul_succ, Nat.add_comm]
      exact runsTo_trans hcell hrun

/-- Settles O55: the run of cells from count 1, read off field by field. -/
theorem cellsAssembleFirstBitLowest : Obligations.CellsAssembleFirstBitLowest := by
  intro s cells bits rest ha hf hl hcount hacc hbits hlen hin
  have hone : s.bitCount.toNat = 1 := by rw [hcount]; rfl
  have hrun := runsTo_cellEdges ha hl (by simp [hf, hone]) hbits (by omega) hin
  refine ⟨receivedCells (lastRise s.lastTime cells) bits rest s, hrun, ?count, ?flag, ?sent, ?below, rfl, rfl, ha, rfl, rfl⟩
  case count =>
    rw [receivedCells, BitVec.toNat_add, hone, BitVec.toNat_ofNat]
    omega
  case flag =>
    rw [receivedCells, hone, decide_eq_decide]
    omega
  case sent =>
    intro j hj
    rw [receivedCells, assembled_getLsbD bits s.acc _ (by omega), if_neg (by omega)]
    congr 1
    omega
  case below =>
    intro j hj
    have hold : s.acc.getLsbD (j + bits.length) = false := by rw [hacc]; exact BitVec.getLsbD_zero
    have hbit := assembled_getLsbD bits s.acc j (by omega)
    rw [if_pos (by omega), hold] at hbit
    exact Option.some.inj hbit

end Sys2Proof.Machine
end

section
/-! A whole frame off the line (spec/30_encoding.md R56): a leading burst, the start marker, 32 cells at the reference
periods and a closing burst, taken by the block and handed to the next poll (R94 to R96). -/

namespace Sys2Proof.Machine

/-- The cells of `FRAME` after the start marker at `c`: the filler of R56 for the falling edge, the reference period. -/
def referenceCells (c : Word) : List Bool → List Cell
  | [] => []
  | b :: bs => { fallTime := c + 560, period := cellPeriod b } :: referenceCells (c + cellPeriod b) bs

/-- The cells of `FRAME` (R56) are a run of cells in the sense of R46, between two edges of their own. -/
theorem frameCells_eq_cellEdges (c : Word) (bits : List Bool) :
    frameCells c bits =
      rise c :: (cellEdges c (referenceCells c bits) ++ [fall (lastRise c (referenceCells c bits) + 560)]) := by
  induction bits generalizing c with
  | nil => rfl
  | cons b bs ih => rw [frameCells, ih]; rfl

/-- Every reference period lies in its own band (R44, R56). -/
theorem referenceCells_cellBit (c : Word) (bits : List Bool) :
    (referenceCells c bits).map cellBit = bits.map some := by
  induction bits generalizing c with
  | nil => rfl
  | cons b bs ih =>
    have hbit : cellBit { fallTime := c + 560, period := cellPeriod b } = some b := by cases b <;> rfl
    rw [referenceCells, List.map_cons, ih, hbit, List.map_cons]

theorem sentBits_getElem? (w : Word) {j : Nat} (hj : j < 32) : (sentBits w)[j]? = some (w.getLsbD j) := by
  simp [sentBits, hj]

/-- The poll of a pending frame answers the frame if it is valid and not 0, else 0 (R93 to R96). -/
theorem readOperation_pending_eq {s : State} (hf : s.frameComplete = true) :
    readOperation s = returnResult (if s.acc ≠ 0 ∧ valid s.acc = true then s.acc else 0) (decoderReset s) := by
  obtain ⟨hempty, -⟩ | ⟨-, hz, h⟩ | ⟨-, hz, hv, h⟩ | ⟨-, hz, hv, h⟩ := readOperation_cases s
  · simp [hf] at hempty
  · simp [h, (isSentinel_iff _).mp hz]
  · have hne : s.acc ≠ 0 := fun h0 => by simp [(isSentinel_iff _).mpr h0] at hz
    rw [h, if_pos ⟨hne, hv⟩]
  · simp [h, hv]

/-- `FRAME` with the operations behind it: burst, start marker, cells, closing burst (R56). -/
theorem frameEvents_append (w t0 : Word) (l : List EventWord) :
    ∃ tc, frameEvents w t0 ++ l =
      rise t0 :: fall (t0 + 9000) :: rise (t0 + BitVec.ofNat 32 Config.tStart) ::
        (cellEdges (t0 + BitVec.ofNat 32 Config.tStart)
          (referenceCells (t0 + BitVec.ofNat 32 Config.tStart) (sentBits w)) ++ fall tc :: l) := by
  rw [frameEvents, frameCells_eq_cellEdges, List.cons_append, List.cons_append, List.cons_append, List.append_assoc]
  exact ⟨_, rfl⟩

/-- A rising edge with no frame pending completes none, unless the count is one bit short, and is the reference of the next
delta (R63, R69). -/
theorem step_rise_incomplete {s : State} {ts : Word} {rest : List EventWord} (ha : s.armed = true)
    (hf : s.frameComplete = false) (hl : s.lastLevel = false) (hcount : s.bitCount ≠ 32)
    (hin : s.inputs = rise ts :: rest) :
    ∃ t, step s = .next t ∧ t.armed = true ∧ t.frameComplete = false ∧ t.lastTime = ts ∧ t.inputs = rest ∧
      t.results = s.results := by
  have hshort : completes s.bitCount = false := by rw [completes_eq_decide, decide_eq_false hcount]
  refine ⟨_, (step_edge hin).trans (congrArg _ (edgeOperation_rise ts ha hf hl)), ?_⟩
  cases classify (delta s.lastTime ts) <;> simp [acceptedEdge, ha, hf, hshort]

/-- The leading burst and the start marker, whatever was half assembled: a count of 1 and an empty accumulator (R56, R64). -/
theorem runsTo_startMarker {s : State} {t0 tf : Word} {rest : List EventWord} (ha : s.armed = true)
    (hf : s.frameComplete = false) (hl : s.lastLevel = false) (hcount : s.bitCount ≠ 32)
    (hin : s.inputs = rise t0 :: fall tf :: rise (t0 + BitVec.ofNat 32 Config.tStart) :: rest) :
    ∃ t, RunsTo 3 s t ∧ t.armed = true ∧ t.frameComplete = false ∧ t.lastLevel = true ∧ t.bitCount = 1 ∧ t.acc = 0 ∧
      t.lastTime = t0 + BitVec.ofNat 32 Config.tStart ∧ t.inputs = rest ∧ t.results = s.results := by
  obtain ⟨u, hburst, hau, hfu, htime, hinu, hresu⟩ := step_rise_incomplete ha hf hl hcount hin
  have hmarker := runsTo_fall_rise hau hfu hinu
  have hstart : classify (BitVec.ofNat 32 Config.tStart) = .start := rfl
  rw [htime, delta_add, hstart] at hmarker
  exact ⟨_, (runSteps_succ hburst).trans hmarker, hau, hfu, rfl, rfl, rfl, rfl, rfl, hresu⟩

/-- A frame on the line stands complete in the slot, the closing burst still to come (R47, R56). -/
theorem runsTo_frame {s : State} {w t0 : Word} {l : List EventWord} (ha : s.armed = true) (hf : s.frameComplete = false)
    (hl : s.lastLevel = false) (hcount : s.bitCount ≠ 32) (hin : s.inputs = frameEvents w t0 ++ l) :
    ∃ t tc, RunsTo 67 s t ∧ t.armed = true ∧ t.frameComplete = true ∧ t.bitCount = 33 ∧ t.acc = w ∧
      t.inputs = fall tc :: l ∧ t.results = s.results := by
  obtain ⟨tc, hevents⟩ := frameEvents_append w t0 l
  obtain ⟨u, hmarker, hau, hfu, hlu, hcountu, haccu, htime, hinu, hresu⟩ :=
    runsTo_startMarker ha hf hl hcount (hin.trans hevents)
  have hlen : (sentBits w).length = 32 := by simp [sentBits]
  obtain ⟨t, hcells, hcountt, hft, hsent, -, -, -, hat, hint, hrest⟩ :=
    cellsAssembleFirstBitLowest u _ (sentBits w) (fall tc :: l) hau hfu hlu hcountu haccu
      (referenceCells_cellBit (t0 + BitVec.ofNat 32 Config.tStart) (sentBits w)) hlen.le (by rw [hinu, htime])
  rw [hlen] at hcells hcountt hft hsent
  refine ⟨t, tc, runsTo_trans hmarker hcells, hat, hft, BitVec.eq_of_toNat_eq hcountt, ?acc, hint, hrest.trans hresu⟩
  case acc =>
    apply BitVec.eq_of_getLsbD_eq
    intro j hj
    have hbit := hsent j hj
    rw [sentBits_getElem? w hj, Nat.sub_self, Nat.zero_add] at hbit
    exact Option.some.inj hbit

/-- Settles O57: the closing burst meets a held frame, and the poll takes it. -/
theorem transmittedFrameIsReceivedAndDelivered : Obligations.TransmittedFrameIsReceivedAndDelivered := by
  intro s w t0 rd rest hrd ha hf hl hcount hin
  obtain ⟨t, tc, hframe, hat, hft, hcountt, hacct, hint, hrest⟩ := runsTo_frame ha hf hl hcount hin
  have hheld : step t = .next { t with inputs := rd :: rest } :=
    (step_edge hint).trans (congrArg _ (edgeOperation_held false tc hft))
  have hread : step { t with inputs := rd :: rest } = .next (returnResult
      (if t.acc ≠ 0 ∧ valid t.acc = true then t.acc else 0) (decoderReset { t with inputs := rest })) :=
    (step_read hrd rfl).trans (congrArg _ (readOperation_pending_eq hft))
  have hpending : RunsTo 68 s { t with inputs := rd :: rest } := runsTo_step hframe hheld
  refine ⟨_, _, hpending, hft, hcountt, hacct, hrest, runsTo_step hpending hread,
    decoderClear_decoderReset { t with inputs := rest }, hat, rfl, ?_⟩
  rw [← hacct, ← hrest]
  rfl

end Sys2Proof.Machine
end

section
/-! The eight rows of `EDGE`, each under its own condition (spec/40_edge_decoder.md R60 to R68): a row is the whole operation of
R71, so what it does there is what that operation does for the class of the delta. -/

namespace Sys2Proof.Machine

/-- A row of `EDGE` is the whole `EDGE` of its operands. -/
theorem exec_edge {i : Instr} {level : Bool} {ts : Word} (s : State) (hop : operationOf i = .edge level ts) :
    exec i s = .next (edgeOperation level ts s) := by
  rw [exec_eq_runOperation, hop, runOperation]

/-- A row of `EDGE` at an accepted edge does what the class of the delta says (R63). -/
theorem exec_accepted {i : Instr} {ts : Word} {s : State} (hop : operationOf i = .edge true ts) (ha : s.armed = true)
    (hf : s.frameComplete = false) (hl : s.lastLevel = false) :
    exec i s = .next (acceptedEdge (classify (ts - s.lastTime)) ts s) :=
  (exec_edge s hop).trans (congrArg _ (edgeOperation_rise ts ha hf hl))

/-- An accepted data bit, element by element: with no frame pending, the flag is the completion test alone (R65, R66, R69). -/
theorem shiftIn_recordEdge_eq {s : State} (bit : Bool) (ts : Word) (hf : s.frameComplete = false) :
    shiftIn bit (recordEdge ts s) =
      { s with lastTime := ts, lastLevel := true, acc := shiftedAcc bit s.acc,
               bitCount := s.bitCount + 1, frameComplete := decide (s.bitCount + 1 = 33) } := by
  have hflag : (completes s.bitCount || s.frameComplete) = decide (s.bitCount + 1 = 33) := by
    rw [hf, Bool.or_false]
    rfl
  rw [← hflag]
  rfl

/-- Settles O10. -/
theorem edgeOffChangesNothing : Obligations.EdgeOffChangesNothing := by
  intro level ts s ha
  rw [exec_edge s rfl, edgeOperation_off level ts ha]

/-- Settles O11. -/
theorem edgeHeldChangesNothing : Obligations.EdgeHeldChangesNothing := by
  intro level ts s _ hf
  rw [exec_edge s rfl, edgeOperation_held level ts hf]

/-- Settles O12: each of the three pairs of levels fails the rising-edge test. -/
theorem edgeSkipTracksTheLevelOnly : Obligations.EdgeSkipTracksTheLevelOnly := by
  intro level ts s ha hf hpair
  have hnorise : ¬(s.lastLevel = false ∧ level = true) := by
    rintro ⟨hlow, rfl⟩
    simp [hlow] at hpair
  rw [exec_edge s rfl, edgeOperation_skip ts ha hf hnorise, trackLevel]

/-- Settles O13. -/
theorem edgeStartSeedsTheFrame : Obligations.EdgeStartSeedsTheFrame := by
  intro ts s ha hf hl hlo hhi
  rw [exec_accepted rfl ha hf hl, (classify_start_iff _).mpr ⟨hlo, hhi⟩]
  rfl

/-- Settles O14: a delta in the band of a one is a data bit 1. -/
theorem edgeOneShiftsInAOne : Obligations.EdgeOneShiftsInAOne := by
  intro ts s ha hf hl hlo hhi
  rw [exec_accepted rfl ha hf hl, (classify_one_iff _).mpr ⟨hlo, hhi⟩, acceptedEdge, shiftIn_recordEdge_eq true ts hf]
  rfl

/-- Settles O15: a delta in the band of a zero is a data bit 0. -/
theorem edgeZeroShiftsInAZero : Obligations.EdgeZeroShiftsInAZero := by
  intro ts s ha hf hl hlo hhi
  rw [exec_accepted rfl ha hf hl, (classify_zero_iff _).mpr ⟨hlo, hhi⟩, acceptedEdge, shiftIn_recordEdge_eq false ts hf]
  rfl

/-- Settles O16. -/
theorem edgeNoiseRecordsTheEdgeOnly : Obligations.EdgeNoiseRecordsTheEdgeOnly := by
  intro ts s ha hf hl hnone _
  rw [exec_accepted rfl ha hf hl, hnone]
  rfl

/-- Settles O17: the count selects the row (R42), it does not enter what an out-of-band edge does. -/
theorem edgeDesyncRecordsTheEdgeOnly : Obligations.EdgeDesyncRecordsTheEdgeOnly := by
  intro ts s ha hf hl hnone _
  rw [exec_accepted rfl ha hf hl, hnone]
  rfl

end Sys2Proof.Machine
end

section
/-! What holds of every row of `EDGE` in every state (spec/40_edge_decoder.md R63, R69, R71; log 6 where the state selects
another row). -/

namespace Sys2Proof.Machine

/-- An accepted edge writes `LAST_TIME` and `LAST_LEVEL` whatever its class, and never `ARMED` or the model's lists (R63). -/
theorem acceptedEdge_records (c : Symbol) (ts : Word) (s : State) :
    (acceptedEdge c ts s).lastTime = ts ∧ (acceptedEdge c ts s).lastLevel = true ∧
      (acceptedEdge c ts s).armed = s.armed ∧ (acceptedEdge c ts s).inputs = s.inputs ∧
      (acceptedEdge c ts s).results = s.results := by
  cases c <;> exact ⟨rfl, rfl, rfl, rfl, rfl⟩

/-- Settles O18. -/
theorem acceptedEdgeRecordsTimeAndLevel : Obligations.AcceptedEdgeRecordsTimeAndLevel := by
  intro i ts s hop ha hf hl
  obtain ⟨htime, hlevel, harmed, hinputs, hresults⟩ := acceptedEdge_records (classify (ts - s.lastTime)) ts s
  refine ⟨_, exec_accepted hop ha hf hl, htime, hlevel, harmed, hinputs, hresults, ?_⟩
  cases classify (ts - s.lastTime) <;> rfl

/-- An accepted edge by the integer bands of its delta, element by element, in the order of R71. -/
theorem acceptedEdge_classify {s : State} (d ts : Word) (hf : s.frameComplete = false) :
    acceptedEdge (classify d) ts s =
      if 10800 ≤ d.toNat ∧ d.toNat ≤ 16875 then { s with lastTime := ts, lastLevel := true, bitCount := 1, acc := 0 }
      else if 1800 ≤ d.toNat ∧ d.toNat ≤ 2812 then
        { s with lastTime := ts, lastLevel := true, acc := s.acc >>> 1 ||| 0x80000000,
                 bitCount := s.bitCount + 1, frameComplete := decide (s.bitCount + 1 = 33) }
      else if 896 ≤ d.toNat ∧ d.toNat ≤ 1400 then
        { s with lastTime := ts, lastLevel := true, acc := s.acc >>> 1,
                 bitCount := s.bitCount + 1, frameComplete := decide (s.bitCount + 1 = 33) }
      else { s with lastTime := ts, lastLevel := true } := by
  simp only [← classify_start_iff, ← classify_one_iff, ← classify_zero_iff]
  cases classify d with
  | start => rfl
  | one => exact shiftIn_recordEdge_eq true ts hf
  | zero => exact shiftIn_recordEdge_eq false ts hf
  | none => rfl

/-- Settles O19: the tests before the classes decide as in `edgeOperation_cases`; past them the edge is accepted. -/
theorem everyEdgeRowIsTheWholeListing : Obligations.EveryEdgeRowIsTheWholeListing := by
  intro i level ts s hop
  rw [exec_edge s hop]
  congr 1
  obtain ⟨ha, h⟩ | ⟨ha, hf, h⟩ | ⟨ha, hf, hl, h⟩ | ⟨ha, hf, hl, rfl, -⟩ := edgeOperation_cases level ts s
  · rw [h, if_pos ha]
  · rw [h, if_neg (by simp [ha]), if_pos hf]
  · rw [h, if_neg (by simp [ha]), if_neg (by simp [hf]), if_pos hl, trackLevel]
  · rw [if_neg (by simp [ha]), if_neg (by simp [hf]), if_neg (by simp [hl]), edgeOperation_rise ts ha hf hl,
      acceptedEdge_classify _ ts hf, delta]

/-- The flag after an accepted edge: only a data bit at count 32 sets it (R69). -/
theorem acceptedEdge_frameComplete_iff {c : Symbol} {s : State} (ts : Word) (hf : s.frameComplete = false) :
    (acceptedEdge c ts s).frameComplete = true ↔ (c = .one ∨ c = .zero) ∧ s.bitCount = 32 := by
  cases c <;> simp [acceptedEdge, hf, completes_iff]

/-- An `EDGE` sets the flag only if it is accepted, as a data bit at count 32 (R69). -/
theorem edgeOperation_frameComplete_iff {s : State} (level : Bool) (ts : Word) (hf : s.frameComplete = false) :
    (edgeOperation level ts s).frameComplete = true ↔
      level = true ∧ s.armed = true ∧ s.lastLevel = false ∧
        (classify (ts - s.lastTime) = .one ∨ classify (ts - s.lastTime) = .zero) ∧ s.bitCount = 32 := by
  obtain ⟨ha, h⟩ | ⟨-, hheld, -⟩ | ⟨ha, -, hl, h⟩ | ⟨ha, -, hl, rfl, -⟩ := edgeOperation_cases level ts s
  · simp [h, ha, hf]
  · simp [hf] at hheld
  · rw [h, trackLevel_frameComplete, hf]
    exact iff_of_false Bool.false_ne_true fun ⟨hlevel, _, hlow, _⟩ => hl ⟨hlow, hlevel⟩
  · rw [edgeOperation_rise ts ha hf hl, acceptedEdge_frameComplete_iff ts hf, delta]
    simp [ha, hl]

/-- Of the four operations only `EDGE` sets the flag (R19, R69). -/
theorem runOperation_frameComplete_iff {s : State} (o : Operation) (hf : s.frameComplete = false) :
    (runOperation o s).frameComplete = true ↔
      ∃ ts, o = .edge true ts ∧ s.armed = true ∧ s.lastLevel = false ∧
        (classify (ts - s.lastTime) = .one ∨ classify (ts - s.lastTime) = .zero) ∧ s.bitCount = 32 := by
  cases o with
  | edge level ts => simp [runOperation, edgeOperation_frameComplete_iff level ts hf]
  | read => simp [runOperation, readOperation_of_empty hf, hf]
  | enable => simp [runOperation]
  | disable => simp [runOperation]

/-- Settles O20: the flag set, the edge was a data bit at count 32, so the count is 33. -/
theorem flagIsSetExactlyAtTheThirtyThirdCount : Obligations.FlagIsSetExactlyAtTheThirtyThirdCount := by
  intro i s t ht hf
  obtain rfl := (exec_eq_next_iff i s t).mp ht
  have hset := runOperation_frameComplete_iff (operationOf i) hf
  refine ⟨hset, fun hflag => ?_⟩
  obtain ⟨ts, hop, ha, hl, hbit, hcount⟩ := hset.mp hflag
  rw [hop, runOperation, edgeOperation_rise ts ha hf hl, delta]
  obtain hclass | hclass := hbit <;> simp [hclass, acceptedEdge, hcount]

end Sys2Proof.Machine
end

section
/-! Runs of edges: none disturbs a pending frame (spec/40_edge_decoder.md R61), and cells without a start marker complete a
frame at the 33rd (R70, R128). -/

namespace Sys2Proof.Machine

/-- While a frame is pending, an edge is taken and nothing else happens (R61). -/
theorem step_edge_pending {s : State} {ev : EventWord} {rest : List EventWord} (hf : s.frameComplete = true)
    (hev : IsEdge ev) (hin : s.inputs = ev :: rest) : step s = .next { s with inputs := rest } := by
  have hop : decodeOperation ev = .edge (evLevel ev) (evTs ev) := if_pos hev
  rw [step_eq_runOperation hin, hop]
  exact congrArg _ (edgeOperation_held _ _ hf)

/-- Settles O51, by induction on the edges. -/
theorem pendingFrameSurvivesAnyEdges : Obligations.PendingFrameSurvivesAnyEdges := by
  intro s evs rest hf hedges hin
  induction evs generalizing s with
  | nil =>
    obtain rfl : s.inputs = rest := hin
    rfl
  | cons ev evs ih =>
    obtain ⟨hev, hevs⟩ := List.forall_mem_cons.mp hedges
    exact (runSteps_succ (step_edge_pending hf hev hin)).trans (ih { s with inputs := evs ++ rest } hf hevs rfl)

/-- Settles O56: the run of cells from count 0; with 33 bits the first has left `ACC` at the low end. -/
theorem unseededCellsCompleteAtThirtyThree : Obligations.UnseededCellsCompleteAtThirtyThree := by
  intro s cells bits rest ha hf hl hcount _ hbits hlen hin
  have hzero : s.bitCount.toNat = 0 := by rw [hcount]; rfl
  have hrun := runsTo_cellEdges ha hl (by simp [hf, hzero]) hbits (by omega) hin
  refine ⟨receivedCells (lastRise s.lastTime cells) bits rest s, hrun, ?count, ?flag, ?frame, ha, rfl, rfl⟩
  case count =>
    rw [receivedCells, BitVec.toNat_add, hzero, BitVec.toNat_ofNat]
    omega
  case flag => rw [receivedCells, hzero, Nat.zero_add]
  case frame =>
    intro hfull j hj
    rw [receivedCells, assembled_getLsbD bits s.acc j hj, if_neg (by omega), hfull]
    rfl

end Sys2Proof.Machine
end

section
/-! The checksum as a linear function of its input bits (spec/41_checksum.md R82, R83): XOR-linear functions that agree on
every single bit agree everywhere, so two forms of the checksum need to be compared on single bits only. -/

namespace Sys2Proof.Machine

/-- The function takes XOR to XOR (R83, linearity). -/
def XorLinear {n m : Nat} (f : BitVec n → BitVec m) : Prop := ∀ x y, f (x ^^^ y) = f x ^^^ f y

theorem XorLinear.map_zero {n m : Nat} {f : BitVec n → BitVec m} (hf : XorLinear f) : f 0 = 0 := by
  have h := hf 0 0
  rwa [BitVec.xor_self, BitVec.xor_self] at h

/-- The low `i + 1` bits of a word are its low `i` bits, with bit `i` put in if it is set. -/
theorem setWidth_succ_eq_xor {n : Nat} (x : BitVec n) (i : Nat) :
    (x.setWidth (i + 1)).setWidth n = (x.setWidth i).setWidth n ^^^ if x.getLsbD i then 1#n <<< i else 0#n := by
  cases hx : x.getLsbD i with
  | false => simpa using BitVec.setWidth_setWidth_succ_eq_setWidth_setWidth_of_getLsbD_false hx
  | true =>
    rw [BitVec.setWidth_setWidth_succ_eq_setWidth_setWidth_or_twoPow_of_getLsbD_true hx, if_pos rfl, ← BitVec.twoPow_eq]
    ext j hj
    by_cases hji : i = j
    · simp [hji]
    · simp [BitVec.getElem_twoPow, Ne.symm hji]

/-- XOR-linear functions that agree on every single bit are equal, by induction on the number of low bits. -/
theorem XorLinear.eq_of_eq_on_bits {n m : Nat} {f g : BitVec n → BitVec m} (hf : XorLinear f) (hg : XorLinear g)
    (hbit : ∀ i < n, f (1#n <<< i) = g (1#n <<< i)) (x : BitVec n) : f x = g x := by
  have hlow : ∀ k ≤ n, f ((x.setWidth k).setWidth n) = g ((x.setWidth k).setWidth n) := by
    intro k
    induction k with
    | zero =>
      intro _
      have hnone : (x.setWidth 0).setWidth n = 0 := by ext; simp
      rw [hnone, hf.map_zero, hg.map_zero]
    | succ k ih =>
      intro hk
      rw [setWidth_succ_eq_xor, hf, hg, ih (by omega)]
      split
      · rw [hbit k (by omega)]
      · exact congrArg _ (hf.map_zero.trans hg.map_zero.symm)
  simpa using hlow n le_rfl

theorem xor_and_mask {n : Nat} (x y mask : BitVec n) : (x ^^^ y) &&& mask = (x &&& mask) ^^^ (y &&& mask) := by
  ext i hi
  simp [Bool.and_xor_distrib_right]

theorem xorLinear_crcTerms : XorLinear crcTerms := by
  intro x y
  simp only [crcTerms, BitVec.shiftLeft_xor_distrib, BitVec.ushiftRight_xor_distrib, xor_and_mask]
  ac_rfl

theorem xorLinear_crcFold : XorLinear crcFold := by
  intro x y
  simp only [crcFold, BitVec.ushiftRight_xor_distrib, BitVec.extractLsb'_xor]
  ac_rfl

theorem xorLinear_crc8 : XorLinear crc8 := by
  intro p q
  rw [crc8, BitVec.setWidth_xor, xorLinear_crcTerms, xorLinear_crcFold, crc8, crc8]

theorem crc8_low24_xor (x y : Word) :
    crc8 ((x ^^^ y).extractLsb' 0 24) = crc8 (x.extractLsb' 0 24) ^^^ crc8 (y.extractLsb' 0 24) := by
  rw [BitVec.extractLsb'_xor, xorLinear_crc8]

/-- Settles O43: both sides are linear in the frame, and agree on each of its 32 bits. -/
theorem crcNetworkIgnoresHighBits : Obligations.CrcNetworkIgnoresHighBits := by
  have hnet : XorLinear (crcFold ∘ crcTerms) := fun x y =>
    (congrArg crcFold (xorLinear_crcTerms x y)).trans (xorLinear_crcFold _ _)
  have hbit : ∀ i < 32, crcFold (crcTerms (1#32 <<< i)) = crc8 ((1#32 <<< i).extractLsb' 0 24) := by decide
  exact hnet.eq_of_eq_on_bits crc8_low24_xor hbit

end Sys2Proof.Machine
end

section
/-! The two tables printed for the checksum: the columns of R83, one byte per input bit, and the parity masks of R84, one per
output bit, which are the columns transposed. -/

namespace Sys2Proof.Machine

/-- The columns `COL[i]` of R83, each with its input bit `i`. -/
def crcColumns : List (Byte × Nat) :=
  ([0x07, 0x0E, 0x1C, 0x38, 0x71, 0xE2, 0xC7, 0x89, 0x15, 0x2A, 0x54, 0xAA, 0x56, 0xAC, 0x5B, 0xB6, 0x6B, 0xD6,
    0xAB, 0x51, 0xA2, 0x43, 0x86, 0x0B] : List Byte).zipIdx

/-- The masks `PAR[k]` of R84. -/
def parityMasks : List CrcInput :=
  [0xAD41D1, 0xF7DA63, 0x42B547, 0x856A8E, 0x0AD51C, 0x15AA38, 0x2B5470, 0x56A8E0]

/-- `r` XOR-ed with the columns whose input bit is set in `p` (R83). -/
def xorColumns (cols : List (Byte × Nat)) (p : CrcInput) (r : Byte) : Byte :=
  cols.foldl (fun r c => if p.getLsbD c.2 then r ^^^ c.1 else r) r

theorem ite_xor_eq_xor_ite (b : Bool) (r c : Byte) : (if b then r ^^^ c else r) = r ^^^ if b then c else 0 := by
  cases b <;> simp

/-- A column selected by the XOR of two bits is selected by each of them in turn. -/
theorem ite_boolXor (a b : Bool) (c : Byte) :
    (if (a ^^ b) then c else 0) = (if a then c else 0) ^^^ (if b then c else 0) := by
  cases a <;> cases b <;> simp

theorem xorColumns_xor (cols : List (Byte × Nat)) (p q : CrcInput) (r s : Byte) :
    xorColumns cols (p ^^^ q) (r ^^^ s) = xorColumns cols p r ^^^ xorColumns cols q s := by
  induction cols generalizing r s with
  | nil => rfl
  | cons c cols ih =>
    have hstep : (if (p ^^^ q).getLsbD c.2 then r ^^^ s ^^^ c.1 else r ^^^ s) =
        (if p.getLsbD c.2 then r ^^^ c.1 else r) ^^^ (if q.getLsbD c.2 then s ^^^ c.1 else s) := by
      simp only [ite_xor_eq_xor_ite, BitVec.getLsbD_xor, ite_boolXor]
      ac_rfl
    exact (congrArg _ hstep).trans (ih _ _)

/-- Output bit `k` of the XOR of the columns is the parity of the input bits whose column has bit `k`. -/
theorem xorColumns_getLsbD (cols : List (Byte × Nat)) (p : CrcInput) (r : Byte) (k : Nat) :
    (xorColumns cols p r).getLsbD k =
      (cols.map fun c => p.getLsbD c.2 && c.1.getLsbD k).foldl (· ^^ ·) (r.getLsbD k) := by
  induction cols generalizing r with
  | nil => rfl
  | cons c cols ih =>
    have hstep : (if p.getLsbD c.2 then r ^^^ c.1 else r).getLsbD k =
        (r.getLsbD k ^^ (p.getLsbD c.2 && c.1.getLsbD k)) := by
      cases p.getLsbD c.2 <;> simp
    rw [List.map_cons, List.foldl_cons, ← hstep]
    exact ih _

/-- The checksum is the XOR of its columns: both are linear, and they agree on each of the 24 input bits (R83). -/
theorem crc8_eq_xorColumns (p : CrcInput) : crc8 p = xorColumns crcColumns p 0 := by
  have hcols : XorLinear fun p => xorColumns crcColumns p 0 := fun p q => xorColumns_xor crcColumns p q 0 0
  exact xorLinear_crc8.eq_of_eq_on_bits hcols (by decide) p

/-- Settles O41. -/
theorem crcIsTheXorOfItsColumns : Obligations.CrcIsTheXorOfItsColumns :=
  ⟨xorLinear_crc8, crc8_eq_xorColumns⟩

/-- `PAR[k]` bit `i` is `COL[i]` bit `k` (R84). -/
theorem transposed_columns_eq_parityMask {k : Nat} {par : CrcInput} (h : parityMasks[k]? = some par) :
    (crcColumns.map fun c => (c.2, c.1.getLsbD k)) = (List.range 24).map fun i => (i, par.getLsbD i) := by
  have htables : ∀ (k : Nat) (hk : k < 8),
      (crcColumns.map fun c => (c.2, c.1.getLsbD k)) = (List.range 24).map fun i => (i, parityMasks[k].getLsbD i) := by
    decide
  obtain ⟨hk, rfl⟩ := List.getElem?_eq_some_iff.mp h
  exact htables k hk

/-- The input bits whose column has bit `k` are those that `PAR[k]` masks (R84). -/
theorem columnBits_eq_maskedBits {k : Nat} {par : CrcInput} (p : CrcInput) (h : parityMasks[k]? = some par) :
    (crcColumns.map fun c => p.getLsbD c.2 && c.1.getLsbD k) = (List.range 24).map (p &&& par).getLsbD := by
  have hmask : (p &&& par).getLsbD = fun i => p.getLsbD i && par.getLsbD i := funext fun _ => BitVec.getLsbD_and
  have hbits := congrArg (List.map fun b => p.getLsbD b.1 && b.2) (transposed_columns_eq_parityMask h)
  rw [List.map_map, List.map_map] at hbits
  rw [hmask]
  exact hbits

/-- Settles O42: bit `k` of the columns' XOR is a parity, and the transposed table masks the bits it is taken over. -/
theorem crcBitsAreParityTrees : Obligations.CrcBitsAreParityTrees := by
  intro p k par hpar
  rw [crc8_eq_xorColumns, xorColumns_getLsbD, columnBits_eq_maskedBits p hpar]
  exact congrArg (List.foldl _ · _) BitVec.getLsbD_zero

end Sys2Proof.Machine
end

section
/-! The validity test under flipped bits (spec/41_checksum.md R85, R87): a frame is valid exactly if its syndrome is 0, and
the syndrome of a set of flipped bits is the XOR of the syndromes of its bits. -/

namespace Sys2Proof.Machine

/-- `S(w)`: the checksum field against the checksum of the low 24 bits (R87). -/
def syndrome (w : Word) : Byte := w.extractLsb' 22 8 ^^^ crc8 (w.extractLsb' 0 24)

theorem valid_iff_syndrome_eq_zero (w : Word) : valid w = true ↔ syndrome w = 0#8 :=
  (valid_iff_crcField_eq w).trans BitVec.xor_eq_zero_iff.symm

theorem xorLinear_syndrome : XorLinear syndrome := by
  intro x y
  rw [syndrome, BitVec.extractLsb'_xor, crc8_low24_xor, syndrome, syndrome]
  ac_rfl

/-- A valid frame stays valid exactly if the bits flipped in it have syndrome 0. -/
theorem valid_xor_iff {w : Word} (hw : valid w = true) (e : Word) : valid (w ^^^ e) = true ↔ syndrome e = 0#8 := by
  rw [valid_iff_syndrome_eq_zero, xorLinear_syndrome, (valid_iff_syndrome_eq_zero w).mp hw, BitVec.zero_xor]

/-- Settles O44: the two forms of the test differ by XOR-ing the checksum to the other side. -/
theorem validExactlyWhenFieldHoldsTheChecksum : Obligations.ValidExactlyWhenFieldHoldsTheChecksum := by
  intro w
  rw [crcField_xor]
  exact ⟨valid_iff_syndrome_eq_zero w, valid_iff_crcField_eq w⟩

/-- The syndrome of flipped bit `i`, for bits 0 to 29 as R87 lists it. -/
def bitSyndrome (i : Nat) : Byte :=
  ([0x07, 0x0E, 0x1C, 0x38, 0x71, 0xE2, 0xC7, 0x89, 0x15, 0x2A, 0x54, 0xAA, 0x56, 0xAC, 0x5B, 0xB6, 0x6B, 0xD6, 0xAB, 0x51,
    0xA2, 0x43, 0x87, 0x09, 0x04, 0x08, 0x10, 0x20, 0x40, 0x80] : List Byte).getD i 0

theorem syndrome_flippedBit : ∀ i < 30, syndrome (1#32 <<< i) = bitSyndrome i := by decide

theorem bitSyndrome_ne_zero : ∀ i < 30, bitSyndrome i ≠ 0#8 := by decide

/-- The syndromes of bits 0 to 29 are pairwise different (R87 (b)). -/
theorem bitSyndrome_injective : ∀ i < 30, ∀ j < 30, bitSyndrome i = bitSyndrome j → i = j := by decide

/-- Settles O46: one flipped bit has a syndrome other than 0, and two have different syndromes. -/
theorem singleAndDoubleBitErrorsAreDetected : Obligations.SingleAndDoubleBitErrorsAreDetected := by
  intro w i j hw hi hj hij
  constructor
  · rw [← Bool.not_eq_true, valid_xor_iff hw, syndrome_flippedBit i hi]
    exact bitSyndrome_ne_zero i hi
  · rw [← Bool.not_eq_true, BitVec.xor_assoc, valid_xor_iff hw, xorLinear_syndrome, syndrome_flippedBit i hi,
      syndrome_flippedBit j hj, BitVec.xor_eq_zero_iff]
    exact fun h => hij (bitSyndrome_injective i hi j hj h)

/-- The triples of V-CRC-9. -/
def escapingTriples : List (Nat × Nat × Nat) :=
  [(0, 1, 23), (0, 12, 19), (0, 13, 18), (0, 22, 29), (1, 7, 22), (1, 13, 20), (2, 8, 23), (2, 11, 15), (4, 6, 15),
    (4, 9, 14), (4, 19, 27), (5, 7, 16), (5, 10, 15), (5, 20, 28), (6, 13, 16), (6, 22, 28), (7, 23, 29), (8, 12, 21),
    (9, 11, 29), (11, 20, 25), (12, 17, 29), (17, 19, 22), (18, 20, 23)]

/-- The third bit has the syndrome of the other two together. -/
theorem syndrome_escapingTriple :
    ∀ t ∈ escapingTriples, bitSyndrome t.1 ^^^ bitSyndrome t.2.1 = bitSyndrome t.2.2 := by decide

/-- No other triple has this (R87 (c)). -/
theorem contains_escapingTriples_of_syndrome : ∀ k < 30, ∀ j < k, ∀ i < j,
    bitSyndrome i ^^^ bitSyndrome j = bitSyndrome k → escapingTriples.contains (i, j, k) = true := by decide

/-- Settles O47: the third bit has the syndrome of the other two together in the listed triples and in no other. -/
theorem exactlyTwentyThreeTripleErrorsEscape : Obligations.ExactlyTwentyThreeTripleErrorsEscape := by
  intro w i j k hw hij hjk hk
  rw [BitVec.xor_assoc, BitVec.xor_assoc, valid_xor_iff hw, ← BitVec.xor_assoc, xorLinear_syndrome, xorLinear_syndrome,
    syndrome_flippedBit i (by omega), syndrome_flippedBit j (by omega), syndrome_flippedBit k hk, BitVec.xor_eq_zero_iff]
  exact ⟨fun h => List.contains_iff_mem.mp (contains_escapingTriples_of_syndrome k hk j hjk i hij h),
    syndrome_escapingTriple (i, j, k)⟩

end Sys2Proof.Machine
end

section
/-! The checksum field that seals a frame (spec/41_checksum.md R88): its two low bits feed back into the checksum's input. -/

namespace Sys2Proof.Machine

/-- What the two low bits of the checksum field, frame bits 22 and 23, add to the checksum (R88). -/
def feedback (c0 c1 : Bool) : Byte := (if c0 then 0x86 else 0) ^^^ (if c1 then 0x0B else 0)

/-- The solution `c` of R88 for `f`, the checksum of the payload alone. -/
def sealSolution (f : Byte) : Byte := f ^^^ feedback (f.getLsbD 1) (f.getLsbD 0 ^^ f.getLsbD 1)

theorem sealCrc_eq_sealSolution (payload : BitVec 22) : sealCrc payload = sealSolution (crc8 (payload.setWidth 24)) :=
  BitVec.xor_assoc _ _ _

theorem feedback_getLsbD (c0 c1 : Bool) :
    (feedback c0 c1).getLsbD 0 = c1 ∧ (feedback c0 c1).getLsbD 1 = (c0 ^^ c1) := by
  revert c0 c1; decide

/-- Bits 0 and 1 of the equation that a field with feedback bits `c0` and `c1` obeys (R88). -/
theorem lowBits_of_eq_xor_feedback {c f : Byte} {c0 c1 : Bool} (h : c = f ^^^ feedback c0 c1) :
    c.getLsbD 0 = (f.getLsbD 0 ^^ c1) ∧ c.getLsbD 1 = (f.getLsbD 1 ^^ (c0 ^^ c1)) := by
  obtain ⟨h0, h1⟩ := feedback_getLsbD c0 c1
  rw [h, BitVec.getLsbD_xor, BitVec.getLsbD_xor, h0, h1]
  exact ⟨rfl, rfl⟩

/-- The field's equation has one solution: its bits 0 and 1 fix the field's two low bits, and these the rest (R88). -/
theorem eq_xor_feedback_iff (c f : Byte) :
    c = f ^^^ feedback (c.getLsbD 0) (c.getLsbD 1) ↔ c = sealSolution f := by
  rw [sealSolution]
  constructor
  · intro h
    have hsolve : ∀ c0 c1 f0 f1 : Bool, c0 = (f0 ^^ c1) → c1 = (f1 ^^ (c0 ^^ c1)) → c0 = f1 ∧ c1 = (f0 ^^ f1) := by
      decide
    obtain ⟨h0, h1⟩ := lowBits_of_eq_xor_feedback h
    obtain ⟨hc0, hc1⟩ := hsolve _ _ _ _ h0 h1
    rwa [hc0, hc1] at h
  · intro h
    have hcheck : ∀ f0 f1 : Bool, (f0 ^^ (f0 ^^ f1)) = f1 ∧ (f1 ^^ (f1 ^^ (f0 ^^ f1))) = (f0 ^^ f1) := by decide
    obtain ⟨h0, h1⟩ := lowBits_of_eq_xor_feedback h
    obtain ⟨hc0, hc1⟩ := hcheck (f.getLsbD 0) (f.getLsbD 1)
    rwa [h0, h1, hc0, hc1]

/-- The field's share of the checksum comes from its bits 0 and 1 alone. -/
theorem crc8_crcField (c : Byte) :
    crc8 (c.setWidth 24 <<< 22) = feedback (c.getLsbD 0) (c.getLsbD 1) := by
  have hfield : XorLinear fun c : Byte => crc8 (c.setWidth 24 <<< 22) := by
    intro c d
    simp only [BitVec.setWidth_xor, BitVec.shiftLeft_xor_distrib, xorLinear_crc8 _ _]
  have hfeedback : XorLinear fun c : Byte => feedback (c.getLsbD 0) (c.getLsbD 1) := by
    intro c d
    simp only [feedback, BitVec.getLsbD_xor, ite_boolXor]
    ac_rfl
  exact hfield.eq_of_eq_on_bits hfeedback (by decide) c

theorem frameOf_crcField (payload : BitVec 22) (c : Byte) (unused : BitVec 2) :
    (frameOf payload c unused).extractLsb' 22 8 = c := by
  ext i hi
  have hlow : 22 + i < 30 := by omega
  have hword : 22 + i < 32 := by omega
  have hbyte : i < 32 := by omega
  simp [frameOf, Config.crcPos, hlow, hword, hi, hbyte, ← BitVec.getLsbD_eq_getElem]

/-- The checksum's input: the payload, and the field's two low bits above it (R85, R88). -/
theorem frameOf_low24 (payload : BitVec 22) (c : Byte) (unused : BitVec 2) :
    (frameOf payload c unused).extractLsb' 0 24 = payload.setWidth 24 ^^^ c.setWidth 24 <<< 22 := by
  ext i hi
  have hword : i < 30 ∧ i < 32 := by omega
  by_cases hi22 : i < 22
  · simp [frameOf, Config.crcPos, hword, hi22]
  · have hpayload : payload.getLsbD i = false := BitVec.getLsbD_of_ge payload i (by omega)
    simp [frameOf, Config.crcPos, hword, hi22, hpayload]

/-- Settles O49: the field enters its own equation by its two low bits only, and these have one solution. -/
theorem sealIsTheOneValidChecksum : Obligations.SealIsTheOneValidChecksum := by
  intro payload c unused
  rw [valid_iff_crcField_eq, frameOf_crcField, frameOf_low24, xorLinear_crc8, crc8_crcField, eq_xor_feedback_iff, 
    sealCrc_eq_sealSolution]

end Sys2Proof.Machine
end

section
/-! The all-zero frame, which is valid and yet never delivered (spec/41_checksum.md R86). -/

namespace Sys2Proof.Machine

/-- Settles O45: the poll tests for 0 before it tests the checksum, and every row of `READ` is that poll. -/
theorem sentinelIsValidButNeverDelivered : Obligations.SentinelIsValidButNeverDelivered := by
  refine ⟨by decide, fun i s hread hf hzero => ⟨readOperation s, ?_, ?_⟩⟩
  · rw [exec_eq_runOperation, hread, runOperation]
  · rw [readOperation_pending_eq hf]
    simp [hzero]

end Sys2Proof.Machine
end

section
/-! The rows of `READ`, `ENABLE` and `DISABLE` (spec/42_receiver_ops.md R90 to R96), and what a poll delivers (R50, R94): each
row is its whole operation, so the two equations of `readOperation`, without and with a pending frame, say what its rows do. -/

namespace Sys2Proof.Machine

/-- A row of `READ` is the whole `READ`. -/
theorem exec_read {i : Instr} (s : State) (hop : operationOf i = .read) : exec i s = .next (readOperation s) := by
  rw [exec_eq_runOperation, hop, runOperation]

/-- A row of `READ` at a pending frame frees the slot; the frame is delivered if it passes both tests (R93 to R96). -/
theorem exec_read_pending {i : Instr} {s : State} (hop : operationOf i = .read) (hf : s.frameComplete = true) :
    exec i s = .next (returnResult (if s.acc ≠ 0 ∧ valid s.acc = true then s.acc else 0) (decoderReset s)) := by
  rw [exec_read s hop, readOperation_pending_eq hf]

/-- Settles O22. -/
theorem readEmptyReturnsNothing : Obligations.ReadEmptyReturnsNothing := by
  intro s hf
  rw [exec_read s rfl, readOperation_of_empty hf, returnResult]

/-- Settles O23: the zero frame fails the first test of delivery. -/
theorem readZeroDropsTheSentinel : Obligations.ReadZeroDropsTheSentinel := by
  intro s hf hzero
  rw [exec_read_pending rfl hf, if_neg fun ⟨hne, _⟩ => hne hzero]
  rfl

/-- Settles O24: the frame passes both tests of delivery. -/
theorem readOkDeliversTheFrame : Obligations.ReadOkDeliversTheFrame := by
  intro s hf hne hvalid
  rw [exec_read_pending rfl hf, if_pos ⟨hne, hvalid⟩]
  rfl

/-- Settles O25: the frame fails the second test of delivery. -/
theorem readBadDropsTheFrame : Obligations.ReadBadDropsTheFrame := by
  intro s hf _ hinvalid
  rw [exec_read_pending rfl hf, if_neg fun ⟨_, hvalid⟩ => Bool.false_ne_true (hinvalid.symm.trans hvalid)]
  rfl

/-- Settles O29: `exec_read_pending`, with the validity test as the comparison of the checksum field. -/
theorem consumingReadFreesTheSlot : Obligations.ConsumingReadFreesTheSlot := by
  intro i s hop hf
  refine ⟨_, _, exec_read_pending hop hf, decoderClear_decoderReset s, rfl, rfl, rfl, ?_⟩
  simp only [valid_iff_crcField_eq]

/-- What a poll returns other than 0 is the pending frame, which passed both tests; the slot is then free (R94). -/
theorem readOperation_delivers {s : State} {r : Word} (hres : (readOperation s).results = s.results ++ [r])
    (hr : r ≠ 0) :
    s.frameComplete = true ∧ r = s.acc ∧ valid r = true ∧ DecoderClear (readOperation s) := by
  cases hf : s.frameComplete with
  | false =>
    rw [readOperation_of_empty hf, returnResult_results] at hres
    have hzero : 0 = r := by simpa using hres
    exact absurd hzero.symm hr
  | true =>
    rw [readOperation_pending_eq hf] at hres ⊢
    rw [returnResult_results, decoderReset_results] at hres
    have hword : (if s.acc ≠ 0 ∧ valid s.acc = true then s.acc else 0) = r := by simpa using hres
    split at hword
    · next hpass =>
      obtain ⟨-, hvalid⟩ := hpass
      subst hword
      exact ⟨rfl, rfl, hvalid, decoderClear_decoderReset s⟩
    · exact absurd hword.symm hr

/-- Settles O30: only `READ` lengthens the list of results, and a poll's word other than 0 is the tested frame. -/
theorem onlyCompleteValidFramesAreDelivered : Obligations.OnlyCompleteValidFramesAreDelivered := by
  intro i s t r ht hres hr
  obtain rfl := (exec_eq_next_iff i s t).mp ht
  by_cases hop : operationOf i = .read
  · rw [hop] at hres ⊢
    obtain ⟨hflag, hframe, hvalid, hclear⟩ := readOperation_delivers hres hr
    exact ⟨hflag, hframe, (valid_iff_crcField_eq r).mp hvalid, hclear⟩
  · rw [runOperation_results s hop] at hres
    simp at hres

/-- Settles O26. -/
theorem enableArmsAndClears : Obligations.EnableArmsAndClears := by
  intro s
  rw [exec_eq_runOperation]
  rfl

/-- Settles O27: of the reset state's fields only the model's two lists are kept from before. -/
theorem disableGivesThePowerOnState : Obligations.DisableGivesThePowerOnState := by
  intro s
  rw [exec_eq_runOperation]
  exact ⟨rfl, rfl⟩

/-- Clearing and setting `ARMED` reads nothing of what it writes, so a second time changes nothing (R90, R91). -/
theorem setArmed_decoderReset_idem (b : Bool) (s : State) :
    setArmed b (decoderReset (setArmed b (decoderReset s))) = setArmed b (decoderReset s) := rfl

/-- Settles O28. -/
theorem enableAndDisableAreIdempotent : Obligations.EnableAndDisableAreIdempotent := by
  intro s
  refine ⟨⟨_, exec_eq_runOperation .enable s, ?enable⟩, ⟨_, exec_eq_runOperation .disable s, ?disable⟩⟩
  case enable => exact (exec_eq_next_iff _ _ _).mpr (setArmed_decoderReset_idem true s)
  case disable => exact (exec_eq_next_iff _ _ _).mpr (setArmed_decoderReset_idem false s)

/-- With no frame pending, a poll is taken and returns 0, and nothing else happens (R92). -/
theorem step_read_empty {s : State} {ev : EventWord} {rest : List EventWord} (hf : s.frameComplete = false)
    (hop : evOp ev = 1) (hin : s.inputs = ev :: rest) :
    step s = .next (returnResult 0 { s with inputs := rest }) := by
  rw [step_read hop hin, readOperation_of_empty (s := { s with inputs := rest }) hf]

/-- Settles O52, by induction on the polls: each leaves a state without a pending frame for the next. -/
theorem pollsDoNotDisturbAPartialFrame : Obligations.PollsDoNotDisturbAPartialFrame := by
  intro s evs rest hf hpolls hin
  induction evs generalizing s with
  | nil =>
    obtain rfl : s.inputs = rest := hin
    simp [RunsTo, runSteps_zero]
  | cons ev evs ih =>
    obtain ⟨hop, hpolls⟩ := List.forall_mem_cons.mp hpolls
    have hrest := ih (returnResult 0 { s with inputs := evs ++ rest }) hf hpolls rfl
    refine (runSteps_succ (step_read_empty hf hop hin)).trans (hrest.trans ?_)
    simp [List.replicate_succ]

end Sys2Proof.Machine
end

section
/-! The phases (spec/10_state.md R21) and the table of their transitions (spec/42_receiver_ops.md R97). Under the invariants
`ARMED` and `BIT_COUNT` alone decide the phase, so an entry of the table says what its operation does to these two. -/

namespace Sys2Proof.Machine

/-- The phase of an armed block by its count (R21). -/
def countPhase (n : Nat) : Phase := if n = 0 then .idle else if n = 33 then .pending else .run n

/-- The phase by `ARMED` and `BIT_COUNT` (R21). -/
def phaseOf (armed : Bool) (n : Nat) : Phase := if armed then countPhase n else .off

/-- I2 in integers. -/
theorem frameComplete_iff_toNat {s : State} (hi : Inv s) : s.frameComplete = true ↔ s.bitCount.toNat = 33 := by
  have hcount : s.bitCount = 33 ↔ s.bitCount.toNat = 33 := by bv_omega
  obtain ⟨-, hflag, -⟩ := hi
  exact hflag.trans hcount

/-- Under the invariants every state has a phase, and it is the one its `ARMED` and `BIT_COUNT` name. -/
theorem phase_eq_phaseOf {s : State} (hi : Inv s) : phase s = some (phaseOf s.armed s.bitCount.toNat) := by
  have hzero : s.bitCount = 0#6 ↔ s.bitCount.toNat = 0 := by bv_omega
  cases ha : s.armed with
  | false => simp [phase, phaseOf, ha]
  | true =>
    cases hf : s.frameComplete with
    | true =>
      obtain ⟨-, hflag, -⟩ := hi
      have hfull : s.bitCount = 33 := hflag.mp hf
      simp [phase, phaseOf, countPhase, ha, hf, hfull]
    | false =>
      have hroom := bitCount_le_of_not_complete hi hf
      have hnotFull : s.bitCount.toNat ≠ 33 := by omega
      by_cases hcount : s.bitCount.toNat = 0
      · simp [phase, phaseOf, countPhase, ha, hf, hzero.mpr hcount]
      · simp [phase, phaseOf, countPhase, ha, hf, mt hzero.mp hcount, hcount, hnotFull, hroom]

theorem phaseOf_pending {s : State} (hi : Inv s) (ha : s.armed = true) (hf : s.frameComplete = true) :
    phaseOf s.armed s.bitCount.toNat = .pending := by
  rw [ha, (frameComplete_iff_toNat hi).mp hf]
  rfl

/-- A count with room for a bit is that of `IDLE` or `RUN(k)`. -/
theorem countPhase_cases {n : Nat} (hn : n ≤ 32) :
    (n = 0 ∧ countPhase n = .idle) ∨ (n ≠ 0 ∧ countPhase n = .run n) := by
  by_cases h0 : n = 0
  · exact .inl ⟨h0, if_pos h0⟩
  · exact .inr ⟨h0, (if_neg h0).trans (if_neg (by omega))⟩

/-- The table's entry for an edge that is skipped while no frame is pending: the phase stays. -/
theorem nextPhase_edgeSkip {n : Nat} (hn : n ≤ 32) (level : Bool) (ts : Word) :
    nextPhase (countPhase n) (.edgeSkip level ts) = some (countPhase n) := by
  obtain ⟨-, h⟩ | ⟨-, h⟩ := countPhase_cases hn <;> rw [h] <;> rfl

/-- The table's entry for a poll that finds nothing: the phase stays, `OFF` included. -/
theorem nextPhase_readEmpty {armed : Bool} {n : Nat} (hn : n ≤ 32) :
    nextPhase (phaseOf armed n) .readEmpty = some (phaseOf armed n) := by
  cases armed with
  | false => rfl
  | true =>
    rw [phaseOf, if_pos rfl]
    obtain ⟨-, h⟩ | ⟨-, h⟩ := countPhase_cases hn <;> rw [h] <;> rfl

/-- The table's entries for a poll that frees the slot (R93). -/
theorem nextPhase_read_pending {s : State} (hf : s.frameComplete = true) :
    nextPhase .pending (subcase s .read) = some .idle := by
  rw [subcase_read_eq, if_neg (by simp [hf])]
  split
  · rfl
  · split <;> rfl

/-- The table's entries for a data bit: from `IDLE` to `RUN(1)`, from `RUN(k)` one on, from `RUN(32)` to `PENDING`. -/
theorem nextPhase_dataBit {n : Nat} (hn : n ≤ 32) (bit level : Bool) (ts : Word) (count : Count) :
    nextPhase (countPhase n) (acceptedRow (if bit then .one else .zero) count level ts) = some (countPhase (n + 1)) := by
  have hentry : nextPhase (countPhase n) (.edgeOne level ts) = some (countPhase (n + 1)) := by
    obtain ⟨rfl, h⟩ | ⟨-, h⟩ := countPhase_cases hn
    · rfl
    · rw [h]
      by_cases hlast : n = 32
      · subst hlast; rfl
      · simp [nextPhase, countPhase, hlast]
  cases bit with
  | true => exact hentry
  | false => exact hentry

/-- The table's entries for an accepted edge: the count the edge leaves names the next phase. -/
theorem nextPhase_acceptedRow {s : State} (hn : s.bitCount.toNat ≤ 32) (c : Symbol) (level : Bool) (ts : Word) :
    nextPhase (countPhase s.bitCount.toNat) (acceptedRow c s.bitCount level ts) =
      some (countPhase (acceptedEdge c ts s).bitCount.toNat) := by
  have hsucc : (s.bitCount + 1).toNat = s.bitCount.toNat + 1 := count_add_one_toNat hn
  have hzero : s.bitCount = 0 ↔ s.bitCount.toNat = 0 := by bv_omega
  cases c with
  | start => obtain ⟨-, h⟩ | ⟨-, h⟩ := countPhase_cases hn <;> rw [h] <;> rfl
  | one =>
    rw [acceptedEdge, shiftIn_bitCount, recordEdge_bitCount, hsucc]
    exact nextPhase_dataBit hn true level ts s.bitCount
  | zero =>
    rw [acceptedEdge, shiftIn_bitCount, recordEdge_bitCount, hsucc]
    exact nextPhase_dataBit hn false level ts s.bitCount
  | none =>
    rw [acceptedEdge, recordEdge_bitCount, acceptedRow]
    obtain ⟨h0, h⟩ | ⟨h0, h⟩ := countPhase_cases hn
    · rw [if_pos (hzero.mpr h0), h]; rfl
    · rw [if_neg (mt hzero.mp h0), h]; rfl

/-- The row an edge is in a state has an entry for the state's phase, and the edge leads to the phase the entry names. -/
theorem nextPhase_edge {s : State} (hi : Inv s) (level : Bool) (ts : Word) :
    nextPhase (phaseOf s.armed s.bitCount.toNat) (subcase s (.edge level ts)) =
      some (phaseOf (edgeOperation level ts s).armed (edgeOperation level ts s).bitCount.toNat) := by
  obtain ⟨ha, h⟩ | ⟨ha, hf, h⟩ | ⟨ha, hf, hl, h⟩ | ⟨ha, hf, hl, rfl, -⟩ := edgeOperation_cases level ts s
  · rw [subcase_edge_off level ts ha, h, ha]
    rfl
  · rw [subcase_edge_held level ts ha hf, h, phaseOf_pending hi ha hf]
    rfl
  · rw [subcase_edge_skip ts ha hf hl, h, trackLevel_armed, trackLevel_bitCount, ha]
    exact nextPhase_edgeSkip (bitCount_le_of_not_complete hi hf) level ts
  · obtain ⟨harmed, -⟩ := edgeOperation_frame true ts s
    rw [subcase_edge_accepted ts ha hf hl, harmed, edgeOperation_rise ts ha hf hl, ha, delta]
    exact nextPhase_acceptedRow (bitCount_le_of_not_complete hi hf) _ true ts

/-- The same of a poll. Under I3 a pending frame means that the block is armed, so freeing the slot leads to `IDLE`. -/
theorem nextPhase_read {s : State} (hi : Inv s) :
    nextPhase (phaseOf s.armed s.bitCount.toNat) (subcase s .read) =
      some (phaseOf (readOperation s).armed (readOperation s).bitCount.toNat) := by
  cases hf : s.frameComplete with
  | false =>
    rw [subcase_read_eq, if_pos hf, readOperation_of_empty hf]
    exact nextPhase_readEmpty (bitCount_le_of_not_complete hi hf)
  | true =>
    have ha : s.armed = true := by
      obtain ⟨-, -, hdisarmed, -⟩ := hi
      by_contra hoff
      obtain ⟨-, -, -, -, hclear⟩ := hdisarmed (Bool.eq_false_of_not_eq_true hoff)
      simp [hf] at hclear
    rw [phaseOf_pending hi ha hf, nextPhase_read_pending hf, readOperation_pending_eq hf, returnResult_armed,
      decoderReset_armed, ha]
    rfl

/-- R97, one operation at a time: the row it is has an entry, and the operation leads to the phase the entry names. -/
theorem nextPhase_subcase {s : State} (hi : Inv s) (o : Operation) :
    nextPhase (phaseOf s.armed s.bitCount.toNat) (subcase s o) =
      some (phaseOf (runOperation o s).armed (runOperation o s).bitCount.toNat) := by
  cases o with
  | edge level ts => exact nextPhase_edge hi level ts
  | read => exact nextPhase_read hi
  | enable => rfl
  | disable => rfl

/-- Settles O36: a selected row is the row its operation is in the state, and the next state meets the invariants again, so
its `ARMED` and `BIT_COUNT` name its phase. -/
theorem phasesMoveAsTheTableSays : Obligations.PhasesMoveAsTheTableSays := by
  refine ⟨fun s hi => ⟨_, phase_eq_phaseOf hi⟩, fun i s p hi hsel hp => ?_⟩
  obtain rfl : phaseOf s.armed s.bitCount.toNat = p := Option.some.inj ((phase_eq_phaseOf hi).symm.trans hp)
  have hmove := nextPhase_subcase hi (operationOf i)
  rw [subcase_of_selects hsel] at hmove
  exact ⟨_, _, exec_eq_runOperation i s, hmove, phase_eq_phaseOf (inv_runOperation _ hi)⟩

end Sys2Proof.Machine
end

section
/-! No operation stops (spec/60_exceptions.md R100): neither does a step, nor a run. -/

namespace Sys2Proof.Machine

/-- A step has a next state: the same one with nothing waiting, else what the operation taken leaves (R40, R100). -/
theorem step_has_next (s : State) : ∃ t, step s = .next t := by
  cases hin : s.inputs with
  | nil => exact ⟨s, step_nil hin⟩
  | cons ev rest => exact ⟨_, step_eq_runOperation hin⟩

theorem exists_runsTo (n : Nat) (s : State) : ∃ t, RunsTo n s t := by
  induction n generalizing s with
  | zero => exact ⟨s, runSteps_zero s⟩
  | succ n ih =>
    obtain ⟨t, hstep⟩ := step_has_next s
    obtain ⟨u, hrun⟩ := ih t
    exact ⟨u, (runSteps_succ hstep).trans hrun⟩

/-- Settles O9: a row leaves what its operation leaves, and a run goes on from step to step. -/
theorem nothingEverStops : Obligations.NothingEverStops :=
  ⟨fun i s => ⟨_, exec_eq_runOperation i s⟩, exists_runsTo⟩

end Sys2Proof.Machine
end

section
/-! A completing edge and a poll of two agents in either order (spec/60_exceptions.md R108): the edge puts the frame in the
slot, so the first poll behind it takes the frame, and a poll before it finds the slot empty. -/

namespace Sys2Proof.Machine

/-- The `RESULT` of the poll that finds the frame `w` pending (R94 to R96). -/
def pollAnswer (w : Word) : Word := if w ≠ 0 ∧ valid w = true then w else 0

/-- A poll of a pending frame answers for it and frees the slot (R93). -/
theorem step_read_pending {s : State} {ev : EventWord} {rest : List EventWord} (hf : s.frameComplete = true)
    (hop : evOp ev = 1) (hin : s.inputs = ev :: rest) :
    step s = .next (returnResult (pollAnswer s.acc) (decoderReset { s with inputs := rest })) := by
  rw [step_read hop hin, readOperation_pending_eq (s := { s with inputs := rest }) hf, pollAnswer]

/-- A data bit at count 32 completes the frame it is shifted into (R65, R66, R69). -/
theorem edgeOperation_completes {s : State} {ts : Word} {bit : Bool} (ha : s.armed = true) (hf : s.frameComplete = false)
    (hl : s.lastLevel = false) (hcount : s.bitCount = 32)
    (hclass : classify (ts - s.lastTime) = if bit then .one else .zero) :
    edgeOperation true ts s =
      { s with lastTime := ts, lastLevel := true, acc := shiftedAcc bit s.acc, bitCount := 33, frameComplete := true } := by
  have hbit : acceptedEdge (if bit then .one else .zero) ts s = shiftIn bit (recordEdge ts s) := by cases bit <;> rfl
  rw [edgeOperation_rise ts ha hf hl, delta, hclass, hbit, shiftIn_recordEdge_eq bit ts hf, hcount]
  rfl

/-- The completing edge and the poll behind it, as one run: the poll answers for the completed frame and the slot is free again
(R69, R93). -/
theorem runsTo_completingEdge_read {s : State} {ts : Word} {bit : Bool} {rd : EventWord} {rest : List EventWord}
    (ha : s.armed = true) (hf : s.frameComplete = false) (hl : s.lastLevel = false) (hcount : s.bitCount = 32)
    (hclass : classify (ts - s.lastTime) = if bit then .one else .zero) (hrd : evOp rd = 1)
    (hin : s.inputs = rise ts :: rd :: rest) :
    RunsTo 2 s (returnResult (pollAnswer (shiftedAcc bit s.acc)) (decoderReset { s with inputs := rest })) := by
  have hedge := (step_edge hin).trans
    (congrArg _ (edgeOperation_completes (s := { s with inputs := rd :: rest }) ha hf hl hcount hclass))
  exact (runSteps_succ hedge).trans (runSteps_succ (step_read_pending rfl hrd rfl))

/-- Settles O54: in both orders the edge and the poll behind it are one run; the other poll meets an empty slot, freed by that
poll or not yet filled. -/
theorem completingEdgeAndReadCommuteUpToWhichPollAnswers :
    Obligations.CompletingEdgeAndReadCommuteUpToWhichPollAnswers := by
  intro s ts bit rd rest hrd ha hf hl hcount hclass
  have hedgeFirst := runsTo_step
    (runsTo_completingEdge_read (s := { s with inputs := rise ts :: rd :: rd :: rest }) ha hf hl hcount hclass hrd rfl)
    (step_read_empty rfl hrd rfl)
  have hpoll : step { s with inputs := rd :: rise ts :: rd :: rest } =
      .next (returnResult 0 { s with inputs := rise ts :: rd :: rest }) := step_read_empty hf hrd rfl
  have hpollFirst := (runSteps_succ hpoll).trans (runsTo_completingEdge_read ha hf hl hcount hclass hrd rfl)
  refine ⟨_, _, _, hedgeFirst, hpollFirst, rfl, ?edgeFirst, ?pollFirst, rfl, decoderClear_decoderReset s, ha, rfl⟩
  case edgeFirst => exact List.append_assoc s.results [_] [0]
  case pollFirst => exact List.append_assoc s.results [0] [_]

end Sys2Proof.Machine
end

section
/-! What a reset of the decoder leaves behind (spec/70_reset_and_hazards.md): it delivers nothing (R122), a disabled block stays
clear whatever operations arrive (R123), and the first accepted edge after `ENABLE` is measured against 0 (R129). -/

namespace Sys2Proof.Machine

/-- `ENABLE` and `DISABLE` begin with a `DecoderReset()` (R90, R91). -/
theorem decoderClear_runOperation_of_control {o : Operation} (s : State) (ho : o = .enable ∨ o = .disable) :
    DecoderClear (runOperation o s) := by
  obtain rfl | rfl := ho
  · exact decoderClear_decoderReset s
  · exact decoderClear_decoderReset s

/-- Settles O31: `READ` alone lengthens the list of results, and a control operation leaves DecoderState clear. -/
theorem onlyReadMovesAFrameOut : Obligations.OnlyReadMovesAFrameOut := by
  intro i s hop
  refine ⟨_, exec_eq_runOperation i s, runOperation_results s hop, fun hcontrol => ?_⟩
  obtain ⟨-, -, -, hacc, hflag⟩ := decoderClear_runOperation_of_control s hcontrol
  exact ⟨hacc, hflag⟩

/-- In a disabled, clear state there is nothing left for `DISABLE` to clear (R91). -/
theorem setArmed_false_decoderReset_eq_self {s : State} (ha : s.armed = false) (hc : DecoderClear s) :
    setArmed false (decoderReset s) = s := by
  obtain ⟨hlevel, htime, hcount, hacc, hflag⟩ := hc
  cases s
  simp_all [setArmed, decoderReset]

/-- In a disabled, clear state an edge is ignored, `DISABLE` finds nothing to do, and a poll returns 0 (R60, R91, R92). -/
theorem runOperation_off_clear {o : Operation} {s : State} (ha : s.armed = false) (hc : DecoderClear s)
    (ho : o ≠ .enable) : runOperation o s = if o = .read then returnResult 0 s else s := by
  cases o with
  | edge level ts => exact edgeOperation_off level ts ha
  | read =>
    obtain ⟨-, -, -, -, hflag⟩ := hc
    exact readOperation_of_empty hflag
  | enable => exact absurd rfl ho
  | disable => exact setArmed_false_decoderReset_eq_self ha hc

/-- Op 1 and no other denotes `READ` (R41). -/
theorem decodeOperation_eq_read_iff (ev : EventWord) : decodeOperation ev = .read ↔ evOp ev = 1 := by
  rw [decodeOperation]
  split_ifs with hedge hread henable
  · exact iff_of_false nofun (by rw [hedge]; decide)
  · exact iff_of_true rfl hread
  · exact iff_of_false nofun hread
  · exact iff_of_false nofun hread

/-- Op 2 and no other denotes `ENABLE` (R41). -/
theorem decodeOperation_eq_enable_iff (ev : EventWord) : decodeOperation ev = .enable ↔ IsEnable ev := by
  rw [decodeOperation]
  split_ifs with hedge hread henable
  · exact iff_of_false nofun (by rw [IsEnable, hedge]; decide)
  · exact iff_of_false nofun (by rw [IsEnable, hread]; decide)
  · exact iff_of_true rfl henable
  · exact iff_of_false nofun henable

/-- A disabled, clear block takes any event word but an `ENABLE`, and only a poll shows: it returns 0. -/
theorem step_off_clear {s : State} {ev : EventWord} {rest : List EventWord} (ha : s.armed = false)
    (hc : DecoderClear s) (hev : ¬IsEnable ev) (hin : s.inputs = ev :: rest) :
    step s = .next (if evOp ev = 1 then returnResult 0 { s with inputs := rest } else { s with inputs := rest }) := by
  have hne : decodeOperation ev ≠ .enable := mt (decodeOperation_eq_enable_iff ev).mp hev
  rw [step_eq_runOperation hin, runOperation_off_clear (s := { s with inputs := rest }) ha hc hne]
  simp only [decodeOperation_eq_read_iff]

/-- A run of a disabled, clear block takes its event words and appends one 0 for each poll among them; nothing else changes
(R123). -/
theorem runsTo_off_clear {s : State} {evs rest : List EventWord} (ha : s.armed = false) (hc : DecoderClear s)
    (hevs : ∀ ev ∈ evs, ¬IsEnable ev) (hin : s.inputs = evs ++ rest) :
    RunsTo evs.length s { s with
      inputs := rest
      results := s.results ++ List.replicate (evs.countP (fun ev => evOp ev == 1)) 0 } := by
  induction evs generalizing s with
  | nil =>
    obtain rfl : s.inputs = rest := hin
    simp [RunsTo, runSteps_zero]
  | cons ev evs ih =>
    obtain ⟨hev, hevs⟩ := List.forall_mem_cons.mp hevs
    have hstep := step_off_clear ha hc hev hin
    by_cases hread : evOp ev = 1
    · rw [if_pos hread] at hstep
      have hrest := ih (s := returnResult 0 { s with inputs := evs ++ rest }) ha hc hevs rfl
      have hcount : (ev :: evs).countP (fun ev => evOp ev == 1) = evs.countP (fun ev => evOp ev == 1) + 1 :=
        List.countP_cons_of_pos (beq_iff_eq.mpr hread)
      rw [hcount, List.replicate_succ, List.append_cons]
      exact (runSteps_succ hstep).trans hrest
    · rw [if_neg hread] at hstep
      have hrest := ih (s := { s with inputs := evs ++ rest }) ha hc hevs rfl
      have hcount : (ev :: evs).countP (fun ev => evOp ev == 1) = evs.countP (fun ev => evOp ev == 1) :=
        List.countP_cons_of_neg (mt eq_of_beq hread)
      rw [hcount]
      exact (runSteps_succ hstep).trans hrest

/-- Settles O37: the run above changes neither `ARMED` nor DecoderState. -/
theorem disabledBlockDoesNothingUntilEnable : Obligations.DisabledBlockDoesNothingUntilEnable := by
  intro s evs rest ha hc hevs hin
  exact ⟨_, runsTo_off_clear ha hc hevs hin, ha, hc, rfl, rfl⟩

/-- Against an earlier timestamp 0 a delta is the timestamp itself (R7). -/
theorem delta_zero (ts : Word) : delta 0 ts = ts := BitVec.sub_zero ts

/-- Settles O38: `ENABLE` leaves `LAST_TIME` and `LAST_LEVEL` 0 in an armed block without a frame. -/
theorem firstDeltaAfterEnableIsTheTimestamp : Obligations.FirstDeltaAfterEnableIsTheTimestamp := by
  intro s ts
  refine ⟨_, exec_eq_runOperation .enable s, delta_zero ts, ?accepted⟩
  case accepted => exact (accepts_iff true _).mpr ⟨rfl, rfl, rfl, rfl⟩

end Sys2Proof.Machine
end
